-- ==== Sys2Proof/Word.lean ====
section
/-! DEFINITION. The word types of the block: every host register is 64 bits wide (R7) and every port access moves one byte
(R80). -/

namespace Sys2Proof

/-- A host register, a command word or a cursor: 64 bits (R7). -/
abbrev Word := BitVec 64

/-- A byte of BUF or PAYLOAD (R44, R45). -/
abbrev Byte := BitVec 8

end Sys2Proof
end

