-- ==== Sys2Proof/Config.lean ====
section
/-! DEFINITION. The implementation parameters of spec/00_scope.md section 4 (R7 to R15), carried as plain data so that every
statement can be made for every admissible value, and the free values of spec/93_implementation_defined.md. -/

namespace Sys2Proof

/-- CODE1_EXT (R12): how the 8-bit body of prefix code 1 is widened. -/
inductive Code1Ext where
  | zero
  | sign
deriving DecidableEq, Repr

/-- BD_CODE3_POLICY (R14): what the variable-width double does for prefix code 3. -/
inductive Code3Policy where
  | fault
  | zero
deriving DecidableEq, Repr

/-- The eight implementation parameters, "the only implementation parameters" (R7). -/
structure Config where
  /-- BUF_CAP (R8), OPEN. -/
  bufCap : Nat
  /-- PAYLOAD_CAP (R9), OPEN. -/
  payloadCap : Nat
  /-- HANDLE_MAX (R10). -/
  handleMax : Nat
  /-- MC_MAX_BYTES (R11). -/
  mcMaxBytes : Nat
  /-- CODE1_EXT (R12). -/
  code1Ext : Code1Ext
  /-- BD_CODE1_PATTERN (R13). -/
  bdCode1Pattern : Word
  /-- BD_CODE3_POLICY (R14). -/
  bdCode3Policy : Code3Policy
  /-- DD6_ORDER (R15): byte indices of the default, in the order the six bytes are read. -/
  dd6Order : List Nat
deriving DecidableEq, Repr

/-- The values the spec takes (00_scope.md section 4). BUF_CAP and PAYLOAD_CAP are OPEN: 64 and 65535 are DESIGN CHOICES
(log 1), the values spec/95_test_vectors.md runs with. BD_CODE1_PATTERN and DD6_ORDER are the spec's, from general
knowledge, UNVERIFIED (log 14). No statement rests on any of them. -/
def Config.standard : Config where
  bufCap := 64
  payloadCap := 65535
  handleMax := 8
  mcMaxBytes := 8
  code1Ext := .zero
  bdCode1Pattern := 0x3FF0000000000000
  bdCode3Policy := .fault
  dd6Order := [4, 5, 0, 1, 2, 3]

/-- The word a host register read returns where the spec says "any value" (I-6, R256). FREE VALUE (log 4): no body. One
constant for every instance (log 27). -/
opaque Config.freeWord : Nat → Word

/-- The byte a port read returns where the spec says "any value" (I-4, I-6, R80, R256). FREE VALUE (log 4): no body. One
constant for every instance (log 27). -/
opaque Config.freeByte : Nat → Byte

end Sys2Proof
end

