-- ==== Sys2Proof/Syntax.lean ====
section
/-! DEFINITION. The commands: one constructor per row of spec/opcode_table.json (R102). A command carries no operand fields
(R100), so no constructor has an argument. -/

namespace Sys2Proof

/-- The eighteen decode commands of R102. -/
inductive Instr where
  /-- READ_B, boolean (R141). -/
  | readB
  /-- READ_BB, 2-bit field (R142). -/
  | readBB
  /-- READ_3B, 3-bit field (R143). -/
  | read3B
  /-- READ_4B, 4-bit field (R144). -/
  | read4B
  /-- READ_RC, 8-bit byte (R145). -/
  | readRC
  /-- READ_RS, raw 16-bit signed (R146). -/
  | readRS
  /-- READ_RL, raw 32-bit signed (R147). -/
  | readRL
  /-- READ_RD, raw 64-bit double (R148). -/
  | readRD
  /-- READ_BS, bit-short (R161). -/
  | readBS
  /-- READ_BL, bit-long (R162). -/
  | readBL
  /-- READ_BD, bit-double (R163). -/
  | readBD
  /-- READ_DD, double with default (R165). -/
  | readDD
  /-- READ_MC, signed M-char (R181). -/
  | readMC
  /-- READ_UMC, unsigned M-char (R182). -/
  | readUMC
  /-- READ_MS, M-short (R183). -/
  | readMS
  /-- READ_TV, text (R201). -/
  | readTV
  /-- READ_H, handle with code (R203). -/
  | readH
  /-- READ_H0, handle with code 0 (R204). -/
  | readH0
deriving DecidableEq, Repr

/-- Every command, in the table's order. -/
def Instr.all : List Instr :=
  [.readB, .readBB, .read3B, .read4B, .readRC, .readRS, .readRL, .readRD, .readBS, .readBL, .readBD, .readDD,
    .readMC, .readUMC, .readMS, .readTV, .readH, .readH0]

end Sys2Proof
end

