-- ==== Sys2Proof/WellFormed.lean ====
section
/-! DEFINITION. The checks on terms a user writes: which parameter values are admissible (00_scope.md section 4) and which
instructions are well formed (all: R100). -/

namespace Sys2Proof

/-- No command has an operand field (R100), so there is nothing to check: every instruction is well formed. -/
def Instr.wf (_ : Instr) : Bool := true

/-- BUF_CAP is 1 to 2^60 (00_scope.md section 4). -/
def Config.bufCapOk (k : Config) : Bool := decide (1 ≤ k.bufCap ∧ k.bufCap ≤ 2 ^ 60)

/-- HANDLE_MAX <= PAYLOAD_CAP <= 65535 (R9). -/
def Config.payloadCapOk (k : Config) : Bool := decide (k.handleMax ≤ k.payloadCap ∧ k.payloadCap ≤ 65535)

/-- HANDLE_MAX is 0 to 255 (00_scope.md section 4). -/
def Config.handleMaxOk (k : Config) : Bool := decide (k.handleMax ≤ 255)

/-- MC_MAX_BYTES is 4 to 8 (00_scope.md section 4). -/
def Config.mcMaxBytesOk (k : Config) : Bool := decide (4 ≤ k.mcMaxBytes ∧ k.mcMaxBytes ≤ 8)

/-- DD6_ORDER is a permutation of [0,1,2,3,4,5] (00_scope.md section 4). -/
def Config.dd6OrderOk (k : Config) : Bool := decide (k.dd6Order.Perm [0, 1, 2, 3, 4, 5])

/-- The admissible parameter values of 00_scope.md section 4. CODE1_EXT, BD_CODE1_PATTERN and BD_CODE3_POLICY admit every
value of their types. -/
def Config.wf (k : Config) : Bool :=
  k.bufCapOk && k.payloadCapOk && k.handleMaxOk && k.mcMaxBytesOk && k.dd6OrderOk

end Sys2Proof
end

