-- ==== Sys2Proof/Machine/State.lean ====
section
/-! DEFINITION. The state of one block instance (R30) with its parameters, the host agent beside it (R6, R112), the reasons a
step can stop, and the state right after reset (R250). -/

namespace Sys2Proof.Machine

/-- BUF or PAYLOAD: (address, byte) pairs, addresses strictly rising. An address that is not listed holds no value: it was
"never written" (R44, R45; log 3). -/
abbrev Memory := List Host.Cell

/-- The six causes a command can raise (R225). -/
inductive Cause where
  | outOfBounds
  | malformedPrefix
  | contLength
  | handleCap
  | textCap
  | illegalOp
deriving DecidableEq, Repr

/-- A label of a host program: one the program names, or the one "unique to each expansion" of a `poll` (R112, R113). -/
inductive Label where
  | user (n : Nat)
  | poll (n : Nat)
deriving DecidableEq, Repr

/-- The host statements of R112. -/
inductive HostStmt where
  /-- `wr REG, v`: HostWriteReg at the register's offset. -/
  | wr (off : Nat) (v : Word)
  /-- `rd REG`: HostReadReg at the register's offset. -/
  | rd (off : Nat)
  /-- `wb a, v`: HostWriteBuf. -/
  | wb (a : Nat) (v : Byte)
  /-- `rb a`: HostReadBuf. -/
  | rb (a : Nat)
  /-- `rp i`: HostReadPay. -/
  | rp (i : Nat)
  /-- `label:`. -/
  | label (l : Label)
  /-- `jbusy label`: jump if the last `rd STATUS` showed bit 0 = 1. -/
  | jbusy (l : Label)
  /-- `jfault label`: jump if the last `rd STATUS` showed bit 1 = 1. -/
  | jfault (l : Label)
  /-- `jmp label`. -/
  | jmp (l : Label)
  /-- `halt`. -/
  | halt
deriving DecidableEq, Repr

/-- One value the host read, for the program's listing (R112). -/
inductive Reading where
  | reg (off : Nat) (v : Word)
  | buf (a : Nat) (v : Byte)
  | pay (i : Nat) (v : Byte)
deriving DecidableEq, Repr

/-- Who moves next: the host, the engine, or the reset input (R222, R250; log 5). -/
inductive Turn where
  | host
  | engine
  | reset
deriving DecidableEq, Repr

/-- The host agent (R6): its program, the index of its next statement, the value of its last `rd STATUS`, and the listing of
the values it read, oldest first (R112; log 6, log 7). -/
structure HostAgent where
  prog : List HostStmt
  pos : Nat
  lastStatus : Option Word
  listing : List Reading
deriving DecidableEq, Repr

/-- A host with no program. -/
def HostAgent.idle : HostAgent where
  prog := []
  pos := 0
  lastStatus := none
  listing := []

/-- The whole machine: the block's architectural state (R30), its parameters, the host agent, and the model's two fields. -/
structure State where
  /-- CURSOR (R34). -/
  cursor : Word
  /-- BUFLEN (R35). -/
  buflen : Word
  /-- DEFAULT (R36). -/
  dflt : Word
  /-- RESULT (R37). -/
  result : Word
  /-- HCODE.CODE (R38). -/
  hcode : BitVec 4
  /-- PLEN.LEN (R39). -/
  plen : BitVec 16
  /-- STATUS.BUSY (R40). -/
  busy : Bool
  /-- STATUS.FAULT (R40). -/
  fault : Bool
  /-- STATUS.DROP (R40). -/
  drop : Bool
  /-- STATUS.CAUSE (R40). -/
  cause : BitVec 4
  /-- FAULT_CURSOR (R42). -/
  faultCursor : Word
  /-- FAULT_INFO.OP (R43). -/
  faultOp : Byte
  /-- FAULT_INFO.DETAIL (R43). -/
  faultDetail : BitVec 16
  /-- PENDING, the hidden latch (R47). -/
  pending : Word
  /-- BUF (R45). -/
  buf : Memory
  /-- PAYLOAD (R44). -/
  payload : Memory
  /-- The implementation parameters (R7): no step changes them. -/
  cfg : Config
  /-- The host agent (R6, R112). -/
  host : HostAgent
  /-- MODEL: the agents' next turns; empty means the engine if BUSY = 1, else the host (log 5). -/
  turns : List Turn
  /-- MODEL: picks the next free value (log 4). -/
  freeCount : Nat
deriving DecidableEq, Repr

/-- Reasons the machine stops with a fault: none. Every fault of R225 is recorded in STATUS and the machine goes on (R224);
"No behaviour of the block is `stuck`" (93_implementation_defined.md; log 20). -/
inductive Fault where
deriving DecidableEq, Repr

/-- Reasons a step has no successor state (93_implementation_defined.md: "the model does not define a successor state"). -/
inductive Refusal where
  /-- Raised by `exec` alone for an instruction without a meaning; no arm does so. Safe. -/
  | notModelled (mnemonic : String)
  /-- Raised by a command that reads a BUF byte below BUFLEN that the host never wrote; `pos` is where the read began
  (I-3, R45, R254). Safe: the spec defines no successor. -/
  | unwrittenBuf (pos : Nat)
  /-- Raised by a host port access at or above the capacity (I-5, R80). Safe: the spec defines no successor. -/
  | badPortIndex (a : Nat)
  /-- Raised by a register access at an unaligned offset or one above 0xF8 (I-5, R81). Safe: the spec defines no successor. -/
  | badOffset (off : Nat)
  /-- Raised by a host jump to a label that its program does not hold (log 8). Safe: the spec gives it no meaning. -/
  | noSuchLabel (l : Label)
deriving DecidableEq, Repr

/-- The state after reset for given parameters (R250). PENDING is unspecified: 0 is a DESIGN CHOICE (log 2). The host agent,
`turns` and `freeCount` are the model's (log 4, log 5, log 6). -/
def State.resetOf (k : Config) : State where
  cursor := 0
  buflen := 0
  dflt := 0
  result := 0
  hcode := 0
  plen := 0
  busy := false
  fault := false
  drop := false
  cause := 0
  faultCursor := 0
  faultOp := 0
  faultDetail := 0
  pending := 0
  buf := []
  payload := []
  cfg := k
  host := .idle
  turns := []
  freeCount := 0

/-- The machine right after reset (R250), with the parameter values the spec takes (log 1). -/
def State.reset : State := State.resetOf Config.standard

end Sys2Proof.Machine
end

