-- ==== Sys2Proof/Machine/Flags.lean ====
section
/-! DEFINITION. STATUS (R40, R41, R48): the register's view of its fields, the cause codes (R225), and every change of a
flag that is not part of a larger operation. -/

namespace Sys2Proof.Machine

/-- The code STATUS.CAUSE holds for a cause (R225). -/
def Cause.code : Cause → BitVec 4
  | .outOfBounds => 1
  | .malformedPrefix => 2
  | .contLength => 3
  | .handleCap => 4
  | .textCap => 5
  | .illegalOp => 6

/-- STATUS as the host reads it: BUSY bit 0, FAULT bit 1, DROP bit 2, bit 3 zero, CAUSE bits 7:4, the rest zero (R40). -/
def statusWord (s : State) : Word :=
  (0 : BitVec 56) ++ s.cause ++ (0 : BitVec 1) ++ BitVec.ofBool s.drop ++ BitVec.ofBool s.fault ++ BitVec.ofBool s.busy

/-- FAULT_INFO as the host reads it: OP bits 7:0, zero, DETAIL bits 31:16, zero (R43). -/
def faultInfoWord (s : State) : Word := (0 : BitVec 32) ++ s.faultDetail ++ (0 : BitVec 8) ++ s.faultOp

/-- A dropped host write: it changes nothing except DROP (R231). -/
def dropWrite (s : State) : State := { s with drop := true }

/-- A host write of `w` to STATUS: bit 1 clears FAULT and CAUSE, bit 2 clears DROP, every other bit is ignored (R41). With
bit 1 set it is the return from a fault (R229): FAULT_CURSOR and FAULT_INFO keep the record. -/
def writeStatus (w : Word) (s : State) : State :=
  { s with
    fault := s.fault && !w.getLsbD 1
    cause := if w.getLsbD 1 then 0 else s.cause
    drop := s.drop && !w.getLsbD 2 }

end Sys2Proof.Machine
end

