-- ==== Sys2Proof/Machine/Ops.lean ====
section
/-! DEFINITION. The named operations the commands share: byte memories, the bit-level reads of the stream (R74, R75, R77,
R78), commit (R223) and raising a fault (R224). -/

namespace Sys2Proof.Machine

/-! ### Byte memories (R44, R45, R80) -/

/-- The byte at an address, or none where nothing was ever written. -/
def Memory.read : Memory → Nat → Option Byte
  | [], _ => none
  | (x, v) :: m, a => if x = a then some v else Memory.read m a

/-- Writes one byte, keeping the addresses strictly rising. -/
def Memory.write : Memory → Nat → Byte → Memory
  | [], a, v => [(a, v)]
  | (x, w) :: m, a, v =>
    if a < x then (a, v) :: (x, w) :: m
    else if x = a then (a, v) :: m
    else (x, w) :: Memory.write m a v

/-- Writes a run of bytes from an address on: `PayWrite(a + i, r[i])` for every i (R200). -/
def Memory.writeRun (m : Memory) (a : Nat) : List Byte → Memory
  | [] => m
  | b :: bs => Memory.write (Memory.writeRun m (a + 1) bs) a b

/-- The canonical form: addresses strictly rising. -/
def Memory.wf : Memory → Bool
  | [] => true
  | [_] => true
  | (x, _) :: (y, w) :: m => decide (x < y) && Memory.wf ((y, w) :: m)

/-! ### The bit stream (R71 to R75) -/

/-- Bit(p) (R74): bit `7 - (p mod 8)` of BUF byte `floor(p / 8)`; none where that byte was never written. -/
def streamBit (m : Memory) (p : Nat) : Option Nat :=
  match Memory.read m (p / 8) with
  | some b => some ((b.toNat >>> (7 - p % 8)) &&& 1)
  | none => none

/-- Field(p, N) (R75): the N-bit number whose most significant bit is the stream bit at p; none where one of its bytes was
never written. -/
def field (m : Memory) (p : Nat) : Nat → Option Nat
  | 0 => some 0
  | n + 1 =>
    match field m p n, streamBit m (p + n) with
    | some h, some b => some (2 * h + b)
    | _, _ => none

/-- The n bytes r[i] = Field(p + 8*i, 8) of R78, first stream byte first. -/
def byteRun (m : Memory) (p : Nat) : Nat → Option (List Byte)
  | 0 => some []
  | n + 1 =>
    match field m p 8, byteRun m (p + 8) n with
    | some v, some r => some (BitVec.ofNat 8 v :: r)
    | _, _ => none

/-- LE(r) (R78): the little-endian value of a byte run. -/
def leValue : List Byte → Nat
  | [] => 0
  | b :: bs => b.toNat + 256 * leValue bs

/-! ### The engine's reads (R76, R77, R78) -/

/-- What a piece of a command's pseudocode answers: a value with the local cursor, an unbounded natural (R76); or a fault
raised (R224); or a refusal (I-3). -/
inductive Got (α : Type) where
  | ok (v : α) (c : Nat)
  | raise (k : Cause) (pos : Nat) (detail : Nat)
  | refuse (r : Refusal)
deriving DecidableEq, Repr

/-- One piece of pseudocode after another: a raised fault ends the command at once (R224, R227). -/
def Got.bind {α β : Type} (x : Got α) (f : α → Nat → Got β) : Got β :=
  match x with
  | .ok v c => f v c
  | .raise k p d => .raise k p d
  | .refuse r => .refuse r

/-- ReadField(N) (R77). -/
def readField (s : State) (c n : Nat) : Got Nat :=
  if c + n > 8 * s.buflen.toNat then .raise .outOfBounds c 0
  else
    match field s.buf c n with
    | some v => .ok v (c + n)
    | none => .refuse (.unwrittenBuf c)

/-- ReadBytes(n) (R78), with a single bounds check; for n = 0 the commands that allow it take the empty run and read nothing
(R201, R203, R204). -/
def readBytes (s : State) (c n : Nat) : Got (List Byte) :=
  if n = 0 then .ok [] c
  else if c + 8 * n > 8 * s.buflen.toNat then .raise .outOfBounds c 0
  else
    match byteRun s.buf c n with
    | some r => .ok r (c + 8 * n)
    | none => .refuse (.unwrittenBuf c)

/-! ### The end of a command (R223, R224) -/

/-- The writes a command stages (R140): RESULT, HCODE and the payload with its PLEN, each only if its rule writes it. -/
structure Staged where
  result : Option Word
  hcode : Option (BitVec 4)
  payload : Option (List Byte)
deriving DecidableEq, Repr

/-- A scalar command stages RESULT alone (R37). -/
def Staged.scalar (v : Word) : Staged where
  result := some v
  hcode := none
  payload := none

/-- A text command stages its payload alone (R200, R201). -/
def Staged.text (r : List Byte) : Staged where
  result := none
  hcode := none
  payload := some r

/-- A handle command stages HCODE and its payload (R203, R204). -/
def Staged.handle (code : BitVec 4) (r : List Byte) : Staged where
  result := none
  hcode := some code
  payload := some r

/-- PLEN after a commit (R200). -/
def Staged.plenAfter (w : Staged) (old : BitVec 16) : BitVec 16 :=
  match w.payload with
  | some r => BitVec.ofNat 16 r.length
  | none => old

/-- PAYLOAD after a commit (R200): bytes at index L and above keep their previous contents. -/
def Staged.payloadAfter (w : Staged) (old : Memory) : Memory :=
  match w.payload with
  | some r => Memory.writeRun old 0 r
  | none => old

/-- `commit` (R223): the staged writes, the local cursor and BUSY, in one step. -/
def commit (w : Staged) (c : Nat) (s : State) : State :=
  { s with
    result := w.result.getD s.result
    hcode := w.hcode.getD s.hcode
    plen := w.plenAfter s.plen
    payload := w.payloadAfter s.payload
    cursor := BitVec.ofNat 64 c
    busy := false }

/-- `raise Fault(cause, at, detail)` (R224): TAKING AN EXCEPTION. It records the fault, clears BUSY and changes nothing
else. Its return is `writeStatus` with bit 1 set (R229). -/
def raiseFault (k : Cause) (pos detail : Nat) (s : State) : State :=
  { s with
    fault := true
    cause := k.code
    faultCursor := BitVec.ofNat 64 pos
    faultOp := s.pending.extractLsb' 0 8
    faultDetail := BitVec.ofNat 16 detail
    busy := false }

/-- A command's pseudocode "ends in exactly one of: commit, raise Fault" (R222), or is refused (I-3). -/
def endCommand (s : State) (x : Got Staged) : Host.Outcome State Fault Refusal :=
  match x with
  | .ok w c => .next (commit w c s)
  | .raise k p d => .next (raiseFault k p d s)
  | .refuse r => .refused r

end Sys2Proof.Machine
end

