-- ==== Sys2Proof/Machine/Operands.lean ====
section
/-! DEFINITION. How values are assembled from stream bits (R111): widening, the prefix code, the bit-short value that text
reuses, byte patching, the continuation packing. -/

namespace Sys2Proof.Machine

/-! ### Widening (R17, R37) -/

/-- zext_64 of a natural below 2^64. -/
def zext64 (v : Nat) : Word := BitVec.ofNat 64 v

/-- The 8-bit body of prefix code 1, widened per CODE1_EXT (R12, R161, R162). -/
def widenBody (e : Code1Ext) (w : Nat) (b : Byte) : BitVec w :=
  match e with
  | .zero => b.setWidth w
  | .sign => b.signExtend w

/-! ### Prefix codes (R160) -/

/-- `P <- ReadField(2)` (R160). -/
def readPrefix (s : State) (c : Nat) : Got Nat := readField s c 2

/-- BitShortValue() (R161, R201): the 16 result bits of a bit-short. -/
def bitShortValue (s : State) (c0 : Nat) : Got (BitVec 16) :=
  (readPrefix s c0).bind fun p c =>
    match p with
    | 0 => (readBytes s c 2).bind fun r c => .ok (BitVec.ofNat 16 (leValue r)) c
    | 1 => (readField s c 8).bind fun b c => .ok (widenBody s.cfg.code1Ext 16 (BitVec.ofNat 8 b)) c
    | 2 => .ok 0 c
    | _ => .ok 256 c

/-! ### Byte patching (R165) -/

/-- The eight bytes of a word, least significant first (R165). -/
def bytesOfWord (w : Word) : List Byte := (List.range 8).map fun i => w.extractLsb' (8 * i) 8

/-- `d[order[k]] <- r[k]` for each k in turn (R165). -/
def patchBytes : List Byte → List Nat → List Byte → List Byte
  | d, k :: ks, b :: bs => patchBytes (d.set k b) ks bs
  | d, _, _ => d

/-! ### Continuation bytes (R180 to R183) -/

/-- Bit 7 of a byte: "more bytes follow" (R107). -/
def continues (b : Byte) : Bool := b.getLsbD 7

/-- The loop of Collect() (R180) with `n` bytes read and at most `left + 1` more allowed. -/
def collectFrom (s : State) : (left n c : Nat) → Got (List Byte)
  | 0, n, c =>
    (readField s c 8).bind fun v c' =>
      if continues (BitVec.ofNat 8 v) then .raise .contLength c (n + 1) else .ok [BitVec.ofNat 8 v] c'
  | left + 1, n, c =>
    (readField s c 8).bind fun v c' =>
      if continues (BitVec.ofNat 8 v) then
        (collectFrom s left (n + 1) c').bind fun bs c'' => .ok (BitVec.ofNat 8 v :: bs) c''
      else .ok [BitVec.ofNat 8 v] c'

/-- Collect() (R180): at most MC_MAX_BYTES bytes. -/
def collect (s : State) (c : Nat) : Got (List Byte) := collectFrom s (s.cfg.mcMaxBytes - 1) 0 c

/-- The 7-bit groups of an M-char, least significant first (R182). -/
def groupSum : List Byte → Nat
  | [] => 0
  | b :: bs => (b &&& 0x7F).toNat + 128 * groupSum bs

/-- The magnitude of a signed M-char: the terminating byte gives bits 5:0 (R181). -/
def signedMagnitude : List Byte → Nat
  | [] => 0
  | [t] => (t &&& 0x3F).toNat
  | b :: bs => (b &&& 0x7F).toNat + 128 * signedMagnitude bs

/-- The sign flag of a signed M-char: bit 6 of the terminating byte (R181). -/
def signFlag (bs : List Byte) : Bool :=
  match bs.getLast? with
  | some t => t.getLsbD 6
  | none => false

/-- The value of a signed M-char: `trunc_64(2^64 - mag)` where the sign flag is set, so that -0 is 0 (R181). -/
def signedMCharValue (bs : List Byte) : Word :=
  if signFlag bs then BitVec.ofNat 64 (2 ^ 64 - signedMagnitude bs) else BitVec.ofNat 64 (signedMagnitude bs)

/-! ### Payloads (R200 to R204) -/

/-- The cap on a handle's counter, checked before any payload byte is read (R202), then the payload bytes. -/
def handlePayload (s : State) (pos n c : Nat) : Got (List Byte) :=
  if n > s.cfg.handleMax then .raise .handleCap pos n else readBytes s c n

end Sys2Proof.Machine
end

