-- ==== Sys2Proof/Machine/Composite.lean ====
section
/-! DEFINITION. The text and handle readers (spec/43_composite.md). -/

namespace Sys2Proof.Machine

/-- The payload bytes of a text (R201): the length is the 16 bits of a bit-short read as unsigned, capped by PAYLOAD_CAP
before any character byte is read. -/
def textPayload (s : State) (c0 : Nat) : Got (List Byte) :=
  (bitShortValue s c0).bind fun l c =>
    if l.toNat > s.cfg.payloadCap then .raise .textCap c0 l.toNat else readBytes s c l.toNat

/-- READ_TV (R201): RESULT and HCODE are not written. -/
def execReadTV (s : State) : Host.Outcome State Fault Refusal :=
  endCommand s ((textPayload s s.cursor.toNat).bind fun r c => .ok (.text r) c)

/-- READ_H (R203): a 4-bit code, a 4-bit counter, then the payload; RESULT is not written. -/
def execReadH (s : State) : Host.Outcome State Fault Refusal :=
  endCommand s
    ((readField s s.cursor.toNat 4).bind fun code pos =>
      (readField s pos 4).bind fun n c =>
        (handlePayload s pos n c).bind fun r c => .ok (.handle (BitVec.ofNat 4 code) r) c)

/-- READ_H0 (R204): an 8-bit counter, then the payload; the code is inferred as 0. -/
def execReadH0 (s : State) : Host.Outcome State Fault Refusal :=
  endCommand s
    ((readField s s.cursor.toNat 8).bind fun n c =>
      (handlePayload s s.cursor.toNat n c).bind fun r c => .ok (.handle 0 r) c)

end Sys2Proof.Machine
end

