-- ==== Sys2Proof/Machine/Continuation.lean ====
section
/-! DEFINITION. The continuation-encoded integers (spec/42_continuation.md). -/

namespace Sys2Proof.Machine

/-- READ_MC (R181). -/
def execReadMC (s : State) : Host.Outcome State Fault Refusal :=
  endCommand s ((collect s s.cursor.toNat).bind fun bs c => .ok (.scalar (signedMCharValue bs)) c)

/-- READ_UMC (R182). -/
def execReadUMC (s : State) : Host.Outcome State Fault Refusal :=
  endCommand s ((collect s s.cursor.toNat).bind fun bs c => .ok (.scalar (zext64 (groupSum bs))) c)

/-- One little-endian 16-bit word of an M-short (R183). -/
def readShortWord (s : State) (c : Nat) : Got (BitVec 16) :=
  (readBytes s c 2).bind fun r c => .ok (BitVec.ofNat 16 (leValue r)) c

/-- The value of an M-short (R183). -/
def mShortValue (s : State) (c0 : Nat) : Got Nat :=
  (readShortWord s c0).bind fun w0 c1 =>
    if w0.getLsbD 15 then
      (readShortWord s c1).bind fun w1 c2 =>
        if w1.getLsbD 15 then .raise .contLength c1 4
        else .ok ((w0 &&& 0x7FFF).toNat ||| ((w1 &&& 0x7FFF).toNat <<< 15)) c2
    else .ok (w0 &&& 0x7FFF).toNat c1

/-- READ_MS (R183). -/
def execReadMS (s : State) : Host.Outcome State Fault Refusal :=
  endCommand s ((mShortValue s s.cursor.toNat).bind fun v c => .ok (.scalar (zext64 v)) c)

end Sys2Proof.Machine
end

