-- ==== Sys2Proof/Machine/FixedWidth.lean ====
section
/-! DEFINITION. The fixed-width bit readers (spec/40_fixed_width.md). -/

namespace Sys2Proof.Machine

/-- The shared shape of R141 to R145: one field, zero-extended. -/
def fieldCommand (s : State) (n : Nat) : Host.Outcome State Fault Refusal :=
  endCommand s ((readField s s.cursor.toNat n).bind fun v c => .ok (.scalar (zext64 v)) c)

/-- READ_B (R141). -/
def execReadB (s : State) : Host.Outcome State Fault Refusal := fieldCommand s 1

/-- READ_BB (R142). -/
def execReadBB (s : State) : Host.Outcome State Fault Refusal := fieldCommand s 2

/-- READ_3B (R143): a fixed 3-bit field. -/
def execRead3B (s : State) : Host.Outcome State Fault Refusal := fieldCommand s 3

/-- READ_4B (R144). -/
def execRead4B (s : State) : Host.Outcome State Fault Refusal := fieldCommand s 4

/-- READ_RC (R145). -/
def execReadRC (s : State) : Host.Outcome State Fault Refusal := fieldCommand s 8

/-- READ_RS (R146): two bytes, little-endian, sign-extended. -/
def execReadRS (s : State) : Host.Outcome State Fault Refusal :=
  endCommand s ((readBytes s s.cursor.toNat 2).bind fun r c =>
    .ok (.scalar ((BitVec.ofNat 16 (leValue r)).signExtend 64)) c)

/-- READ_RL (R147): four bytes, little-endian, sign-extended. -/
def execReadRL (s : State) : Host.Outcome State Fault Refusal :=
  endCommand s ((readBytes s s.cursor.toNat 4).bind fun r c =>
    .ok (.scalar ((BitVec.ofNat 32 (leValue r)).signExtend 64)) c)

/-- READ_RD (R148): eight bytes, little-endian, the bit pattern kept exactly (R164). -/
def execReadRD (s : State) : Host.Outcome State Fault Refusal :=
  endCommand s ((readBytes s s.cursor.toNat 8).bind fun r c => .ok (.scalar (BitVec.ofNat 64 (leValue r))) c)

end Sys2Proof.Machine
end

