-- ==== Sys2Proof/Machine/PrefixCoded.lean ====
section
/-! DEFINITION. The prefix-coded scalars (spec/41_prefix_coded.md). -/

namespace Sys2Proof.Machine

/-- READ_BS (R161). -/
def execReadBS (s : State) : Host.Outcome State Fault Refusal :=
  endCommand s ((bitShortValue s s.cursor.toNat).bind fun v c => .ok (.scalar (v.signExtend 64)) c)

/-- The 32 result bits of a bit-long (R162). -/
def bitLongValue (s : State) (c0 : Nat) : Got (BitVec 32) :=
  (readPrefix s c0).bind fun p c =>
    match p with
    | 0 => (readBytes s c 4).bind fun r c => .ok (BitVec.ofNat 32 (leValue r)) c
    | 1 => (readField s c 8).bind fun b c => .ok (widenBody s.cfg.code1Ext 32 (BitVec.ofNat 8 b)) c
    | 2 => .ok 0 c
    | _ => .raise .malformedPrefix c0 3

/-- READ_BL (R162). -/
def execReadBL (s : State) : Host.Outcome State Fault Refusal :=
  endCommand s ((bitLongValue s s.cursor.toNat).bind fun v c => .ok (.scalar (v.signExtend 64)) c)

/-- The pattern of a bit-double (R163): code 1 gives BD_CODE1_PATTERN, code 2 gives +0.0, code 3 follows
BD_CODE3_POLICY. -/
def bitDoubleValue (s : State) (c0 : Nat) : Got Word :=
  (readPrefix s c0).bind fun p c =>
    match p with
    | 0 => (readBytes s c 8).bind fun r c => .ok (BitVec.ofNat 64 (leValue r)) c
    | 1 => .ok s.cfg.bdCode1Pattern c
    | 2 => .ok 0 c
    | _ =>
      match s.cfg.bdCode3Policy with
      | .fault => .raise .malformedPrefix c0 3
      | .zero => .ok 0 c

/-- READ_BD (R163). -/
def execReadBD (s : State) : Host.Outcome State Fault Refusal :=
  endCommand s ((bitDoubleValue s s.cursor.toNat).bind fun v c => .ok (.scalar v) c)

/-- The patched bytes of a double with default (R165). -/
def patchedDefault (s : State) (c0 : Nat) : Got (List Byte) :=
  (readPrefix s c0).bind fun p c =>
    match p with
    | 0 => .ok (bytesOfWord s.dflt) c
    | 1 => (readBytes s c 4).bind fun r c => .ok (patchBytes (bytesOfWord s.dflt) [0, 1, 2, 3] r) c
    | 2 => (readBytes s c 6).bind fun r c => .ok (patchBytes (bytesOfWord s.dflt) s.cfg.dd6Order r) c
    | _ => (readBytes s c 8).bind fun r c => .ok (patchBytes (bytesOfWord s.dflt) [0, 1, 2, 3, 4, 5, 6, 7] r) c

/-- READ_DD (R165): RESULT is d[7] ++ ... ++ d[0]; DEFAULT is not written. -/
def execReadDD (s : State) : Host.Outcome State Fault Refusal :=
  endCommand s ((patchedDefault s s.cursor.toNat).bind fun d c => .ok (.scalar (BitVec.ofNat 64 (leValue d))) c)

end Sys2Proof.Machine
end

