-- ==== Sys2Proof/Machine/Dispatch.lean ====
section
/-! DEFINITION. One arm per command: each calls its meaning (R222, "run the pseudocode of the rule"). -/

namespace Sys2Proof.Machine

def exec (i : Instr) (s : State) : Host.Outcome State Fault Refusal :=
  match i with
  | .readB => Sys2Proof.Machine.execReadB s
  | .readBB => Sys2Proof.Machine.execReadBB s
  | .read3B => Sys2Proof.Machine.execRead3B s
  | .read4B => Sys2Proof.Machine.execRead4B s
  | .readRC => Sys2Proof.Machine.execReadRC s
  | .readRS => Sys2Proof.Machine.execReadRS s
  | .readRL => Sys2Proof.Machine.execReadRL s
  | .readRD => Sys2Proof.Machine.execReadRD s
  | .readBS => Sys2Proof.Machine.execReadBS s
  | .readBL => Sys2Proof.Machine.execReadBL s
  | .readBD => Sys2Proof.Machine.execReadBD s
  | .readDD => Sys2Proof.Machine.execReadDD s
  | .readMC => Sys2Proof.Machine.execReadMC s
  | .readUMC => Sys2Proof.Machine.execReadUMC s
  | .readMS => Sys2Proof.Machine.execReadMS s
  | .readTV => Sys2Proof.Machine.execReadTV s
  | .readH => Sys2Proof.Machine.execReadH s
  | .readH0 => Sys2Proof.Machine.execReadH0 s

end Sys2Proof.Machine
end

