-- ==== Sys2Proof/Decode.lean ====
section
/-! DEFINITION. The command-word decoder, total on every 64-bit word (R104), its reasons to reject (R103), and the encoder
(R101, R102). -/

namespace Sys2Proof

/-- Why a command word is illegal (R103). -/
inductive DecodeError where
  /-- RSVD, bits 63:8, is not zero. -/
  | reservedNotZero
  /-- OPC, bits 7:0, is not in the table of R102. -/
  | unlistedOpcode
deriving DecidableEq, Repr

/-- OPC, bits 7:0 of a command word (R101). -/
def opcField (w : Word) : Byte := w.extractLsb' 0 8

/-- RSVD, bits 63:8 of a command word (R101). -/
def rsvdField (w : Word) : BitVec 56 := w.extractLsb' 8 56

/-- The opcode map of R102. -/
def decodeOpc (b : Byte) : Option Instr :=
  match b.toNat with
  | 0x01 => some .readB
  | 0x02 => some .readBB
  | 0x03 => some .read3B
  | 0x04 => some .read4B
  | 0x05 => some .readRC
  | 0x06 => some .readRS
  | 0x07 => some .readRL
  | 0x08 => some .readRD
  | 0x10 => some .readBS
  | 0x11 => some .readBL
  | 0x12 => some .readBD
  | 0x13 => some .readDD
  | 0x20 => some .readMC
  | 0x21 => some .readUMC
  | 0x22 => some .readMS
  | 0x30 => some .readTV
  | 0x31 => some .readH
  | 0x32 => some .readH0
  | _ => none

/-- R104: `decode(w) = cmd` if RSVD is 0 and OPC is in the table, otherwise ILLEGAL, with the reason of R103. -/
def decode (w : Word) : Except DecodeError Instr :=
  if rsvdField w = 0 then
    match decodeOpc (opcField w) with
    | some i => .ok i
    | none => .error .unlistedOpcode
  else .error .reservedNotZero

/-- The command word of an instruction: OPC of R102, RSVD zero (R101). -/
def encode : Instr → Word
  | .readB => 0x0000000000000001
  | .readBB => 0x0000000000000002
  | .read3B => 0x0000000000000003
  | .read4B => 0x0000000000000004
  | .readRC => 0x0000000000000005
  | .readRS => 0x0000000000000006
  | .readRL => 0x0000000000000007
  | .readRD => 0x0000000000000008
  | .readBS => 0x0000000000000010
  | .readBL => 0x0000000000000011
  | .readBD => 0x0000000000000012
  | .readDD => 0x0000000000000013
  | .readMC => 0x0000000000000020
  | .readUMC => 0x0000000000000021
  | .readMS => 0x0000000000000022
  | .readTV => 0x0000000000000030
  | .readH => 0x0000000000000031
  | .readH0 => 0x0000000000000032

/-- The command word that the low `nbits` bits of `w` stand for, the bits above them zero. A command is one 64-bit word, and
a register holds a number, so no byte order applies (R81, R101; log 13). -/
def tableWord (nbits w : Nat) : Word := BitVec.ofNat 64 (w % 2 ^ nbits)

/-- What the decoder reads from the opcode table's word `w` of `nbits` bits. -/
def decodeTableWord (nbits w : Nat) : Option Instr :=
  match decode (tableWord nbits w) with
  | .ok i => some i
  | .error _ => none

end Sys2Proof
end

