-- ==== Sys2Proof/Machine/HostPort.lean ====
section
/-! DEFINITION. The host's accesses to the block (R80, R81) and the reset input (R250, R251). -/

namespace Sys2Proof.Machine

/-! ### The register window (R33 to R43, R49, R81) -/

/-- An access the window admits: 8-aligned, at most 0xF8 (R81). Accesses are 64 bits wide by their type (log 10). -/
def offsetOk (off : Nat) : Bool := decide (off % 8 = 0 ∧ off ≤ 0xF8)

/-- A write to CURSOR, BUFLEN or DEFAULT: dropped while BUSY = 1 (R231). -/
def writeIfIdle (s t : State) : State := if s.busy then dropWrite s else t

/-- A write to CMD (R221): dropped while BUSY = 1 or FAULT = 1, else latched, unchecked, and BUSY set. -/
def writeCmd (w : Word) (s : State) : State :=
  if s.busy || s.fault then dropWrite s else { s with pending := w, busy := true }

/-- A write to BUFLEN (R35): dropped above BUF_CAP in any phase (R231). -/
def writeBuflen (w : Word) (s : State) : State :=
  if w.toNat > s.cfg.bufCap then dropWrite s else writeIfIdle s { s with buflen := w }

/-- The effect of HostWriteReg at an admitted offset; read-only registers and reserved offsets ignore writes (R49, R231). -/
def writeReg (off : Nat) (w : Word) (s : State) : State :=
  match off with
  | 0x00 => writeCmd w s
  | 0x08 => writeStatus w s
  | 0x10 => writeIfIdle s { s with cursor := w }
  | 0x18 => writeBuflen w s
  | 0x20 => writeIfIdle s { s with dflt := w }
  | _ => s

/-- HostWriteReg(off, w) (R81); an access the window does not admit is refused (I-5). -/
def hostWriteReg (off : Nat) (w : Word) (s : State) : Host.Outcome State Fault Refusal :=
  if offsetOk off then .next (writeReg off w s) else .refused (.badOffset off)

/-- The value a register holds: CMD and the reserved offsets read as 0 (R33, R49), unused bits as 0 (R38, R39, R43). -/
def regValue (off : Nat) (s : State) : Word :=
  match off with
  | 0x08 => statusWord s
  | 0x10 => s.cursor
  | 0x18 => s.buflen
  | 0x20 => s.dflt
  | 0x28 => s.result
  | 0x30 => s.hcode.setWidth 64
  | 0x38 => s.plen.setWidth 64
  | 0x40 => s.faultCursor
  | 0x48 => faultInfoWord s
  | _ => 0

/-- The registers whose value is unspecified while BUSY = 1: CURSOR, RESULT, HCODE, PLEN, FAULT_CURSOR, FAULT_INFO (R256). -/
def engineOwned (off : Nat) : Bool :=
  match off with
  | 0x10 | 0x28 | 0x30 | 0x38 | 0x40 | 0x48 => true
  | _ => false

/-- The value HostReadReg returns (R256): the register's, or the next free value while the engine may be writing it. -/
def regSeen (off : Nat) (s : State) : Word :=
  if s.busy && engineOwned off then Config.freeWord s.freeCount else regValue off s

/-- The host notes a value it read. The free-value counter advances at every read, so that no two reads of one instance take
the free value of the same index (log 4; several instances: log 27); nothing of the block changes (R83: "no read has a side
effect"). -/
def noteReading (r : Reading) (s : State) : State :=
  { s with host := { s.host with listing := s.host.listing ++ [r] }, freeCount := s.freeCount + 1 }

/-- The value of the last `rd STATUS`, after a read at `off` that returned `v` (R112). -/
def lastStatusAfter (off : Nat) (v : Word) (old : Option Word) : Option Word := if off = 0x08 then some v else old

/-- The host remembers what `rd STATUS` returned (R112). -/
def noteStatus (off : Nat) (v : Word) (s : State) : State :=
  { s with host := { s.host with lastStatus := lastStatusAfter off v s.host.lastStatus } }

/-- HostReadReg(off) (R81, R256); an access the window does not admit is refused (I-5). -/
def hostReadReg (off : Nat) (s : State) : Host.Outcome State Fault Refusal :=
  if offsetOk off then .next (noteStatus off (regSeen off s) (noteReading (.reg off (regSeen off s)) s))
  else .refused (.badOffset off)

/-! ### The byte ports (R80) -/

/-- HostWriteBuf(a, v) (R80): dropped while BUSY = 1 (R231), refused at or above BUF_CAP (I-5). -/
def hostWriteBuf (a : Nat) (v : Byte) (s : State) : Host.Outcome State Fault Refusal :=
  if a < s.cfg.bufCap then .next (writeIfIdle s { s with buf := Memory.write s.buf a v })
  else .refused (.badPortIndex a)

/-- The byte HostReadBuf returns: any value where nothing was ever written (R80, I-4). -/
def bufSeen (a : Nat) (s : State) : Byte := (Memory.read s.buf a).getD (Config.freeByte s.freeCount)

/-- HostReadBuf(a) (R80). -/
def hostReadBuf (a : Nat) (s : State) : Host.Outcome State Fault Refusal :=
  if a < s.cfg.bufCap then .next (noteReading (.buf a (bufSeen a s)) s) else .refused (.badPortIndex a)

/-- The byte HostReadPay returns: any value while BUSY = 1 (R256) and where nothing was ever written (I-4). -/
def paySeen (i : Nat) (s : State) : Byte :=
  if s.busy then Config.freeByte s.freeCount else (Memory.read s.payload i).getD (Config.freeByte s.freeCount)

/-- HostReadPay(i) (R80). -/
def hostReadPay (i : Nat) (s : State) : Host.Outcome State Fault Refusal :=
  if i < s.cfg.payloadCap then .next (noteReading (.pay i (paySeen i s)) s) else .refused (.badPortIndex i)

/-! ### Reset (R250, R251) -/

/-- The reset input: every piece of the block's state as R250 gives it, at any time (R251). The parameters, the host agent and
the model's fields are not the block's state and stay (log 12). -/
def resetEvent (s : State) : State :=
  { State.resetOf s.cfg with host := s.host, turns := s.turns, freeCount := s.freeCount }

end Sys2Proof.Machine
end

