-- ==== Sys2Proof/Machine/HostProgram.lean ====
section
/-! DEFINITION. Host programs (R112, R113): the expansion of the pseudo-statements, and one statement of the host agent. -/

namespace Sys2Proof.Machine

/-! ### Register names (R30, R112) -/

/-- The registers' offsets (R30). -/
def offCmd : Nat := 0x00
/-- STATUS (R30). -/
def offStatus : Nat := 0x08
/-- CURSOR (R30). -/
def offCursor : Nat := 0x10
/-- BUFLEN (R30). -/
def offBuflen : Nat := 0x18
/-- DEFAULT (R30). -/
def offDefault : Nat := 0x20
/-- RESULT (R30). -/
def offResult : Nat := 0x28
/-- HCODE (R30). -/
def offHcode : Nat := 0x30
/-- PLEN (R30). -/
def offPlen : Nat := 0x38
/-- FAULT_CURSOR (R30). -/
def offFaultCursor : Nat := 0x40
/-- FAULT_INFO (R30). -/
def offFaultInfo : Nat := 0x48

/-! ### Pseudo-statements (R113) -/

/-- A line of a host program: a statement of R112 or a pseudo-statement of R113. -/
inductive HostLine where
  | stmt (h : HostStmt)
  /-- `poll`. -/
  | poll
  /-- `do MNEMONIC`. -/
  | run (i : Instr)
  /-- `clrf`. -/
  | clrf
  /-- `clrd`. -/
  | clrd
  /-- `load a, b0 b1 ... bk`. -/
  | load (a : Nat) (bs : List Byte)
  /-- `setup len, pos`. -/
  | setup (len pos : Word)
  /-- A mnemonic by itself: `wr CMD, OPC` with no poll. -/
  | bare (i : Instr)
deriving DecidableEq, Repr

/-- `poll` with its own label (R113). -/
def pollStmts (n : Nat) : List HostStmt := [.label (.poll n), .rd offStatus, .jbusy (.poll n)]

/-- `load a, b0 ... bk`: one `wb` a byte (R113). -/
def loadStmts (a : Nat) : List Byte → List HostStmt
  | [] => []
  | b :: bs => .wb a b :: loadStmts (a + 1) bs

/-- The expansion of one line; `n` is the number of the next `poll` label (R113). -/
def expandLine (n : Nat) : HostLine → List HostStmt
  | .stmt h => [h]
  | .poll => pollStmts n
  | .run i => .wr offCmd (encode i) :: pollStmts n
  | .clrf => [.wr offStatus 2]
  | .clrd => [.wr offStatus 4]
  | .load a bs => loadStmts a bs
  | .setup len pos => [.wr offBuflen len, .wr offCursor pos]
  | .bare i => [.wr offCmd (encode i)]

/-- The expansion of a program, each line's `poll` label its own (R113). -/
def expandFrom (n : Nat) : List HostLine → List HostStmt
  | [] => []
  | l :: ls => expandLine n l ++ expandFrom (n + 1) ls

/-- The host statements a program text stands for (R113). -/
def expandProgram (ls : List HostLine) : List HostStmt := expandFrom 0 ls

/-! ### One statement of the host (R112) -/

/-- The index of `label:` in a program. -/
def labelIndex (l : Label) : List HostStmt → Option Nat
  | [] => none
  | .label m :: ps => if m = l then some 0 else (labelIndex l ps).map (· + 1)
  | _ :: ps => (labelIndex l ps).map (· + 1)

/-- The host goes on at statement `p`. -/
def hostGoto (p : Nat) (s : State) : State := { s with host := { s.host with pos := p } }

/-- After an access the host goes on at the next statement. -/
def thenAdvance (x : Host.Outcome State Fault Refusal) : Host.Outcome State Fault Refusal :=
  match x with
  | .next s => .next (hostGoto (s.host.pos + 1) s)
  | .fault f => .fault f
  | .refused r => .refused r

/-- "continue at `label`" (R112); a label the program lacks is refused (log 8). -/
def hostJump (l : Label) (s : State) : Host.Outcome State Fault Refusal :=
  match labelIndex l s.host.prog with
  | some p => .next (hostGoto p s)
  | none => .refused (.noSuchLabel l)

/-- Bit `b` of the last `rd STATUS`; false where there was none (R112; log 7). -/
def lastStatusBit (b : Nat) (s : State) : Bool :=
  match s.host.lastStatus with
  | some w => w.getLsbD b
  | none => false

/-- The effect of one statement (R112). -/
def hostStmt (h : HostStmt) (s : State) : Host.Outcome State Fault Refusal :=
  match h with
  | .wr off v => thenAdvance (hostWriteReg off v s)
  | .rd off => thenAdvance (hostReadReg off s)
  | .wb a v => thenAdvance (hostWriteBuf a v s)
  | .rb a => thenAdvance (hostReadBuf a s)
  | .rp i => thenAdvance (hostReadPay i s)
  | .label _ => thenAdvance (.next s)
  | .jbusy l => if lastStatusBit 0 s then hostJump l s else thenAdvance (.next s)
  | .jfault l => if lastStatusBit 1 s then hostJump l s else thenAdvance (.next s)
  | .jmp l => hostJump l s
  | .halt => .next s

/-- The host's program has ended: it stands at `halt` or its statements ran out (R260). -/
def hostEnded (s : State) : Bool :=
  match s.host.prog[s.host.pos]? with
  | some .halt => true
  | some _ => false
  | none => true

/-- One turn of the host: its next statement, or nothing where its program has ended (R112, R260). -/
def hostTurn (s : State) : Host.Outcome State Fault Refusal :=
  match s.host.prog[s.host.pos]? with
  | some h => hostStmt h s
  | none => .next s

end Sys2Proof.Machine
end

