-- ==== Sys2Proof/Machine/Engine.lean ====
section
/-! DEFINITION. The engine step (R222), whose turn it is (R222, R250; log 5), and a system of several instances (R238). -/

namespace Sys2Proof.Machine

/-- EngineStep() (R222), for BUSY = 1: the whole command in PENDING, or ILLEGAL_OP where the word selects none (R103). -/
def engineStep (s : State) : Host.Outcome State Fault Refusal :=
  match decode s.pending with
  | .ok i => exec i s
  | .error _ => .next (raiseFault .illegalOp s.cursor.toNat 0 s)

/-- The engine's turn: "enabled only when BUSY = 1" (R222); otherwise it does nothing (R239). -/
def engineTurn (s : State) : Host.Outcome State Fault Refusal := if s.busy then engineStep s else .next s

/-- One step of the machine. The scheduled turns come first; where none is scheduled, the engine moves if BUSY = 1 (so every
command's latency is finite, R222), else the host. -/
def takeTurn (s : State) : Host.Outcome State Fault Refusal :=
  match s.turns with
  | [] => if s.busy then engineStep s else hostTurn s
  | .host :: ts => hostTurn { s with turns := ts }
  | .engine :: ts => engineTurn { s with turns := ts }
  | .reset :: ts => .next (resetEvent { s with turns := ts })

/-- The turns under which the engine moves next: none need be scheduled; before others, the engine's own. -/
def engineFirst (ts : List Turn) : List Turn :=
  match ts with
  | [] => []
  | t :: ts => .engine :: t :: ts

/-- The state in which the next step is the engine's and the command word in progress is `w`: what an accepted CMD write
leaves (R221). The block fetches no instructions (R32), so this is how a word reaches the engine (log 6). -/
def withPending (w : Word) (s : State) : State :=
  { s with pending := w, busy := true, turns := engineFirst s.turns }

/-- A turn of instance `k` in a system of instances that share nothing (R238; log 17). Every instance takes its "any value"
reads from the same constants at its own `freeCount`, so two instances at equal counts see the same one: DESIGN CHOICE, unsafe
(log 27); the spec leaves those values free. -/
def systemStep (sys : List State) (k : Nat) : Host.Outcome (List State) Fault Refusal :=
  match sys[k]? with
  | none => .next sys
  | some s =>
    match takeTurn s with
    | .next t => .next (sys.set k t)
    | .fault f => .fault f
    | .refused r => .refused r

end Sys2Proof.Machine
end

