-- ==== Sys2Proof/Machine/Step.lean ====
section
/-! DEFINITION. The one step of the machine, and how the host of this package places a command word. -/

namespace Sys2Proof.Machine

/-- One step: one atomic host statement, one whole command, or a reset (R82, R85, R222). -/
def step (s : State) : Host.Outcome State Fault Refusal := takeTurn s

/-- `s` with the command word `w` of `nbits` bits accepted and the engine to move next (R221, R222; log 6, log 13). -/
def State.withFetchWord (s : State) (nbits w : Nat) : State := withPending (tableWord nbits w) s

end Sys2Proof.Machine
end

