-- ==== Sys2Proof/Safety.lean ====
section
/-! DEFINITION. What the statements speak of: the machine's invariant, what the host owes the block (R253), what the stream
holds at a position, and the states R223 and R224 describe, spelled out here without the machine's own operations. -/

namespace Sys2Proof.Machine

/-- The invariant every step keeps. -/
structure State.Inv (s : State) : Prop where
  /-- The parameters are admissible (00_scope.md section 4). -/
  cfgOk : s.cfg.wf = true
  /-- `BUFLEN <= BUF_CAP` (R35). -/
  buflenLe : s.buflen.toNat ≤ s.cfg.bufCap
  /-- PLEN counts PAYLOAD bytes (R39, R44). -/
  plenLe : s.plen.toNat ≤ s.cfg.payloadCap
  /-- `BUSY = 1, FAULT = 1` never occurs (R220). -/
  phaseOk : (s.busy && s.fault) = false
  /-- `CAUSE = 0` if and only if `FAULT = 0` (R40). -/
  causeIffFault : s.cause = 0 ↔ s.fault = false
  /-- Causes 7 to 15 are never raised (R225). -/
  causeLe : s.cause.toNat ≤ 6
  /-- BUF is in canonical form. -/
  bufWf : Memory.wf s.buf = true
  /-- PAYLOAD is in canonical form. -/
  payloadWf : Memory.wf s.payload = true
  /-- BUF has no byte at or above BUF_CAP (R45). -/
  bufBelowCap : ∀ a, s.cfg.bufCap ≤ a → Memory.read s.buf a = none
  /-- PAYLOAD has no byte at or above PAYLOAD_CAP (R44). -/
  payloadBelowCap : ∀ a, s.cfg.payloadCap ≤ a → Memory.read s.payload a = none
  /-- The last payload stands in bytes 0 to PLEN - 1 (R44). -/
  payloadHeld : ∀ i, i < s.plen.toNat → (Memory.read s.payload i).isSome = true

/-- "Every byte below the length must be written" (R253 step 1). -/
def State.bufferLoaded (s : State) : Prop := ∀ a, a < s.buflen.toNat → (Memory.read s.buf a).isSome = true

/-- `n` bits from position `p` on lie in the stream (R71, R77). -/
def State.inStream (s : State) (p n : Nat) : Prop := p + n ≤ 8 * s.buflen.toNat

/-- The stream's field of `n` bits at `p` is `v` (R75), and lies in the stream. -/
def State.streamField (s : State) (p n v : Nat) : Prop := s.inStream p n ∧ field s.buf p n = some v

/-- The bytes `r` stand in BUF from bit position `p` on, at any alignment (R78, R79). -/
def State.holdsBytes (s : State) (p : Nat) (r : List Byte) : Prop :=
  ∀ i (h : i < r.length), field s.buf (p + 8 * i) 8 = some r[i].toNat

/-- The bytes `r` stand in the stream from bit position `p` on (R71, R78). -/
def State.streamBytes (s : State) (p : Nat) (r : List Byte) : Prop := s.inStream p (8 * r.length) ∧ s.holdsBytes p r

/-- The state R223 leaves after a scalar command that consumed `n` bits: RESULT, CURSOR and BUSY, nothing else. -/
def State.afterScalar (s : State) (v : Word) (n : Nat) : State :=
  { s with result := v, cursor := s.cursor + BitVec.ofNat 64 n, busy := false }

/-- The state R224 leaves: the fault recorded with its code, position and detail, OP from PENDING, BUSY cleared, nothing
else. -/
def State.afterFault (s : State) (code : BitVec 4) (pos detail : Nat) : State :=
  { s with
    fault := true
    cause := code
    faultCursor := BitVec.ofNat 64 pos
    faultOp := s.pending.extractLsb' 0 8
    faultDetail := BitVec.ofNat 16 detail
    busy := false }

/-- `t` is what R200 and R223 leave after a text or handle command that consumed `n` bits and returned the bytes `r`: HCODE is
`code`, PLEN and PAYLOAD hold `r`, PAYLOAD bytes at `r.length` and above keep their contents, and nothing else but CURSOR and
BUSY changes. -/
def State.afterPayload (s : State) (code : BitVec 4) (r : List Byte) (n : Nat) (t : State) : Prop :=
  t = { s with
        hcode := code
        plen := BitVec.ofNat 16 r.length
        payload := t.payload
        cursor := s.cursor + BitVec.ofNat 64 n
        busy := false } ∧
    (∀ i (h : i < r.length), Memory.read t.payload i = some r[i]) ∧
      ∀ i, r.length ≤ i → Memory.read t.payload i = Memory.read s.payload i

/-- The run of a host program is over (R260): the program has ended, no command is pending and no turn is scheduled. -/
def State.runOver (s : State) : Prop := hostEnded s = true ∧ s.busy = false ∧ s.turns = []

end Sys2Proof.Machine
end

