-- ==== Sys2Proof/Certificates/Slice0/Obligations.lean ====
section
/-! DEFINITION. The statements for the provers. Positions `p` are the cursor's natural value; `afterScalar`, `afterFault`,
`afterPayload`, `streamField` and `streamBytes` are defined in Sys2Proof/Safety.lean, and the machine's own `field` and
`streamBit` are pinned by BitPositionIsMsbFirst and FieldIsMsbFirst. -/

open Sys2Proof Sys2Proof.Machine

/-! ### Words the statements use -/

namespace Sys2Proof.Claims

/-- The opcode map, copied from R102. -/
def opcodeMap : List (Instr × Nat) :=
  [(.readB, 0x01), (.readBB, 0x02), (.read3B, 0x03), (.read4B, 0x04), (.readRC, 0x05), (.readRS, 0x06), (.readRL, 0x07),
    (.readRD, 0x08), (.readBS, 0x10), (.readBL, 0x11), (.readBD, 0x12), (.readDD, 0x13), (.readMC, 0x20), (.readUMC, 0x21),
    (.readMS, 0x22), (.readTV, 0x30), (.readH, 0x31), (.readH0, 0x32)]

/-- A command word no row of R102 names, or with RSVD not zero (R103). -/
def illegalWord (w : Word) : Prop :=
  w.extractLsb' 8 56 ≠ 0 ∨ ∀ i, (i, (w.extractLsb' 0 8).toNat) ∉ opcodeMap

/-- The 8-bit body of prefix code 1, widened to a register per CODE1_EXT (R12, R37). -/
def bodyWord (e : Code1Ext) (b : Byte) : Word :=
  match e with
  | .zero => b.setWidth 64
  | .sign => b.signExtend 64

/-- A bit-short whose 16 result bits are `l` as an unsigned number, `n` bits long, stands in the stream at `p` (R161). -/
def bitShortAt (s : State) (p l n : Nat) : Prop :=
  (∃ b0 b1 : Byte, s.streamField p 2 0 ∧ s.streamBytes (p + 2) [b0, b1] ∧ l = (b1 ++ b0).toNat ∧ n = 18) ∨
    (∃ b : Byte, s.streamField p 2 1 ∧ s.streamBytes (p + 2) [b] ∧ l = (widenBody s.cfg.code1Ext 16 b).toNat ∧ n = 10) ∨
    (s.streamField p 2 2 ∧ l = 0 ∧ n = 2) ∨ (s.streamField p 2 3 ∧ l = 256 ∧ n = 2)

/-- A bit-short at `p` is cut off by the end of the stream; the read that fails begins at `pos` (R161). -/
def bitShortCut (s : State) (p pos : Nat) : Prop :=
  (¬s.inStream p 2 ∧ pos = p) ∨ (s.streamField p 2 0 ∧ ¬s.inStream (p + 2) 16 ∧ pos = p + 2) ∨
    (s.streamField p 2 1 ∧ ¬s.inStream (p + 2) 8 ∧ pos = p + 2)

/-- The 7-bit groups of the continued bytes, group i at bits 7i+6..7i (R181, R182, R184). -/
def groups (r : List Byte) : Nat := ∑ i ∈ Finset.range r.length, ((r.getD i 0) &&& 0x7F).toNat <<< (7 * i)

/-- The two faults of Collect() (R180) for an M-char command `i` at the cursor, after the continued bytes `r`: the stream ends
before the next byte, or byte number MC_MAX_BYTES still has bit 7 set. -/
def collectFaults (i : Instr) (s : State) (r : List Byte) : Prop :=
  (∀ b ∈ r, b.getLsbD 7 = true) → s.holdsBytes s.cursor.toNat r →
    (r ≠ [] → s.inStream s.cursor.toNat (8 * r.length)) →
      (r.length < s.cfg.mcMaxBytes → ¬s.inStream (s.cursor.toNat + 8 * r.length) 8 →
        exec i s = .next (s.afterFault 1 (s.cursor.toNat + 8 * r.length) 0)) ∧
      (r.length = s.cfg.mcMaxBytes →
        exec i s = .next (s.afterFault 3 (s.cursor.toNat + 8 * (s.cfg.mcMaxBytes - 1)) s.cfg.mcMaxBytes))

/-- The causes a command may raise (the table of R226). -/
def causesOf (k : Config) : Instr → List (BitVec 4)
  | .readB | .readBB | .read3B | .read4B | .readRC | .readRS | .readRL | .readRD | .readBS | .readDD => [1]
  | .readBL => [1, 2]
  | .readBD => if k.bdCode3Policy = .fault then [1, 2] else [1]
  | .readMC | .readUMC | .readMS => [1, 3]
  | .readTV => [1, 5]
  | .readH | .readH0 => [1, 4]

/-- The commands whose result is a byte sequence in PAYLOAD (43_composite.md); every other command's result is RESULT. -/
def payloadCommands : List Instr := [.readTV, .readH, .readH0]

/-- The outcome with its next state changed by `f`. -/
def mapNext (f : State → State) : Host.Outcome State Fault Refusal → Host.Outcome State Fault Refusal
  | .next t => .next (f t)
  | .fault x => .fault x
  | .refused r => .refused r

/-- Only the host side of the machine differs from `s` to `t`: the block's state is the same (R83). -/
def onlyHostSide (s t : State) : Prop := t = { s with host := t.host, freeCount := t.freeCount }

/-- What a host read notes: one more line in the listing, and nothing of the block (R83, R112). -/
def notes (x : Host.Outcome State Fault Refusal) (s : State) (r : Reading) : Prop :=
  ∃ t, x = .next t ∧ t.host.listing = s.host.listing ++ [r] ∧ onlyHostSide s t

end Sys2Proof.Claims

open Sys2Proof.Claims

/-! ### Encoding -/

/-- R104: the decoder is total, and a word is a command exactly when RSVD is zero and OPC is in the table of R102. -/
def Obligations.CommandWordsDecodeByTable : Prop :=
  ∀ (w : Word) (i : Instr),
    decode w = .ok i ↔ w.extractLsb' 8 56 = 0 ∧ (i, (w.extractLsb' 0 8).toNat) ∈ opcodeMap

/-- Decode and encode agree, in both directions (R101, R102). -/
def Obligations.DecodeEncodeAgree : Prop :=
  ∀ i : Instr, i.wf = true → decode (encode i) = .ok i ∧ ∀ w, decode w = .ok i → w = encode i

/-- A few words written out from R101 and R102. -/
def Obligations.SampleWordsDecode : Prop :=
  decode 0x0000000000000001 = .ok .readB ∧ decode 0x0000000000000013 = .ok .readDD ∧
    decode 0x0000000000000022 = .ok .readMS ∧ decode 0x0000000000000032 = .ok .readH0 ∧
    decode 0x0000000000000101 = .error .reservedNotZero ∧ decode 0x0000000000000000 = .error .unlistedOpcode

/-! ### The bit stream -/

/-- R74: position p is bit `7 - (p mod 8)` of byte `floor(p / 8)`; a bit of a never-written byte has no value (R45). -/
def Obligations.BitPositionIsMsbFirst : Prop :=
  ∀ (m : Memory) (p : Nat),
    (∀ b, Memory.read m (p / 8) = some b → streamBit m p = some (b.getLsbD (7 - p % 8)).toNat) ∧
      (Memory.read m (p / 8) = none → streamBit m p = none)

/-- R75: a field is the sum of its bits, first bit most significant, and equals the byte-straddling assembly of the source,
whose second byte counts only when `o + N > 8`; for whole bytes it equals the shifted window, whose second byte is not read
when `o = 0`. -/
def Obligations.FieldIsMsbFirst : Prop :=
  ∀ (m : Memory) (p n : Nat), 1 ≤ n →
    (∀ b : Nat → Nat, (∀ k, k < n → streamBit m (p + k) = some (b k)) →
      field m p n = some (∑ k ∈ Finset.range n, b k <<< (n - 1 - k))) ∧
    (∀ h l : Byte, p % 8 + n ≤ 16 → Memory.read m (p / 8) = some h →
      (8 < p % 8 + n → Memory.read m (p / 8 + 1) = some l) →
        field m p n = some ((((h.toNat <<< 8) ||| l.toNat) >>> (16 - p % 8 - n)) &&& (2 ^ n - 1))) ∧
    (∀ h l : Byte, Memory.read m (p / 8) = some h → (p % 8 ≠ 0 → Memory.read m (p / 8 + 1) = some l) →
      field m p 8 = some (((h.toNat <<< (p % 8)) ||| (l.toNat >>> (8 - p % 8))) &&& 0xFF))

/-! ### Fixed-width readers -/

/-- R141 to R145: READ_B, READ_BB, READ_3B, READ_4B and READ_RC return their field zero-extended and consume exactly its
width; where the field does not lie in the stream they record OUT_OF_BOUNDS at the cursor. Nothing else changes. -/
def Obligations.FieldReadersReturnTheirField : Prop :=
  ∀ (i : Instr) (n : Nat) (w : Word),
    (i, n, w) ∈ [(Instr.readB, 1, (0x01 : Word)), (.readBB, 2, 0x02), (.read3B, 3, 0x03), (.read4B, 4, 0x04),
      (.readRC, 8, 0x05)] →
    decode w = .ok i ∧ ∀ (s : State) (v : Nat),
      (s.streamField s.cursor.toNat n v → v < 2 ^ n ∧ exec i s = .next (s.afterScalar (BitVec.ofNat 64 v) n)) ∧
      (¬s.inStream s.cursor.toNat n → exec i s = .next (s.afterFault 1 s.cursor.toNat 0))

/-- R146, R147, R148: the raw readers assemble their bytes little-endian; the short and the long are sign-extended, the double
is the pattern; one bounds check at the start. Nothing else changes. -/
def Obligations.RawReadersAreLittleEndian : Prop :=
  decode 0x06 = .ok .readRS ∧ decode 0x07 = .ok .readRL ∧ decode 0x08 = .ok .readRD ∧
  ∀ (s : State) (b0 b1 b2 b3 b4 b5 b6 b7 : Byte),
    (s.streamBytes s.cursor.toNat [b0, b1] → exec .readRS s = .next (s.afterScalar ((b1 ++ b0).signExtend 64) 16)) ∧
    (¬s.inStream s.cursor.toNat 16 → exec .readRS s = .next (s.afterFault 1 s.cursor.toNat 0)) ∧
    (s.streamBytes s.cursor.toNat [b0, b1, b2, b3] →
      exec .readRL s = .next (s.afterScalar ((b3 ++ b2 ++ b1 ++ b0).signExtend 64) 32)) ∧
    (¬s.inStream s.cursor.toNat 32 → exec .readRL s = .next (s.afterFault 1 s.cursor.toNat 0)) ∧
    (s.streamBytes s.cursor.toNat [b0, b1, b2, b3, b4, b5, b6, b7] →
      exec .readRD s = .next (s.afterScalar (b7 ++ b6 ++ b5 ++ b4 ++ b3 ++ b2 ++ b1 ++ b0) 64)) ∧
    (¬s.inStream s.cursor.toNat 64 → exec .readRD s = .next (s.afterFault 1 s.cursor.toNat 0))

/-- R149: a value written into the stream, most significant bit first (bytes least significant first for the raw readers),
is read back at every bit offset. -/
def Obligations.FixedWidthRoundTrip : Prop :=
  (∀ (i : Instr) (n : Nat),
    (i, n) ∈ [(Instr.readB, 1), (.readBB, 2), (.read3B, 3), (.read4B, 4), (.readRC, 8)] →
    ∀ (s : State) (v : BitVec n), s.inStream s.cursor.toNat n →
      (∀ k, k < n → streamBit s.buf (s.cursor.toNat + k) = some (v.getLsbD (n - 1 - k)).toNat) →
        exec i s = .next (s.afterScalar (v.setWidth 64) n)) ∧
  (∀ (s : State) (v : BitVec 16), s.inStream s.cursor.toNat 16 →
    (∀ k j, k < 2 → j < 8 → streamBit s.buf (s.cursor.toNat + 8 * k + j) = some (v.getLsbD (8 * k + (7 - j))).toNat) →
      exec .readRS s = .next (s.afterScalar (v.signExtend 64) 16)) ∧
  (∀ (s : State) (v : BitVec 32), s.inStream s.cursor.toNat 32 →
    (∀ k j, k < 4 → j < 8 → streamBit s.buf (s.cursor.toNat + 8 * k + j) = some (v.getLsbD (8 * k + (7 - j))).toNat) →
      exec .readRL s = .next (s.afterScalar (v.signExtend 64) 32)) ∧
  (∀ (s : State) (v : BitVec 64), s.inStream s.cursor.toNat 64 →
    (∀ k j, k < 8 → j < 8 → streamBit s.buf (s.cursor.toNat + 8 * k + j) = some (v.getLsbD (8 * k + (7 - j))).toNat) →
      exec .readRD s = .next (s.afterScalar v 64))

/-! ### Prefix-coded scalars -/

/-- R161: READ_BS by prefix code, with both of its bounds faults. Nothing else changes. -/
def Obligations.BitShortByPrefix : Prop :=
  decode 0x10 = .ok .readBS ∧ ∀ (s : State) (b0 b1 : Byte),
    (¬s.inStream s.cursor.toNat 2 → exec .readBS s = .next (s.afterFault 1 s.cursor.toNat 0)) ∧
    (s.streamField s.cursor.toNat 2 0 →
      (s.streamBytes (s.cursor.toNat + 2) [b0, b1] →
        exec .readBS s = .next (s.afterScalar ((b1 ++ b0).signExtend 64) 18)) ∧
      (¬s.inStream (s.cursor.toNat + 2) 16 → exec .readBS s = .next (s.afterFault 1 (s.cursor.toNat + 2) 0))) ∧
    (s.streamField s.cursor.toNat 2 1 →
      (s.streamBytes (s.cursor.toNat + 2) [b0] →
        exec .readBS s = .next (s.afterScalar (bodyWord s.cfg.code1Ext b0) 10)) ∧
      (¬s.inStream (s.cursor.toNat + 2) 8 → exec .readBS s = .next (s.afterFault 1 (s.cursor.toNat + 2) 0))) ∧
    (s.streamField s.cursor.toNat 2 2 → exec .readBS s = .next (s.afterScalar 0 2)) ∧
    (s.streamField s.cursor.toNat 2 3 → exec .readBS s = .next (s.afterScalar 256 2))

/-- R162: READ_BL by prefix code; code 3 records MALFORMED_PREFIX at the prefix. Nothing else changes. -/
def Obligations.BitLongByPrefix : Prop :=
  decode 0x11 = .ok .readBL ∧ ∀ (s : State) (b0 b1 b2 b3 : Byte),
    (¬s.inStream s.cursor.toNat 2 → exec .readBL s = .next (s.afterFault 1 s.cursor.toNat 0)) ∧
    (s.streamField s.cursor.toNat 2 0 →
      (s.streamBytes (s.cursor.toNat + 2) [b0, b1, b2, b3] →
        exec .readBL s = .next (s.afterScalar ((b3 ++ b2 ++ b1 ++ b0).signExtend 64) 34)) ∧
      (¬s.inStream (s.cursor.toNat + 2) 32 → exec .readBL s = .next (s.afterFault 1 (s.cursor.toNat + 2) 0))) ∧
    (s.streamField s.cursor.toNat 2 1 →
      (s.streamBytes (s.cursor.toNat + 2) [b0] →
        exec .readBL s = .next (s.afterScalar (bodyWord s.cfg.code1Ext b0) 10)) ∧
      (¬s.inStream (s.cursor.toNat + 2) 8 → exec .readBL s = .next (s.afterFault 1 (s.cursor.toNat + 2) 0))) ∧
    (s.streamField s.cursor.toNat 2 2 → exec .readBL s = .next (s.afterScalar 0 2)) ∧
    (s.streamField s.cursor.toNat 2 3 → exec .readBL s = .next (s.afterFault 2 s.cursor.toNat 3))

/-- R163: READ_BD by prefix code; code 1 gives BD_CODE1_PATTERN, code 2 gives +0.0, code 3 follows BD_CODE3_POLICY. Nothing
else changes. -/
def Obligations.BitDoubleByPrefix : Prop :=
  decode 0x12 = .ok .readBD ∧ ∀ (s : State) (b0 b1 b2 b3 b4 b5 b6 b7 : Byte),
    (¬s.inStream s.cursor.toNat 2 → exec .readBD s = .next (s.afterFault 1 s.cursor.toNat 0)) ∧
    (s.streamField s.cursor.toNat 2 0 →
      (s.streamBytes (s.cursor.toNat + 2) [b0, b1, b2, b3, b4, b5, b6, b7] →
        exec .readBD s = .next (s.afterScalar (b7 ++ b6 ++ b5 ++ b4 ++ b3 ++ b2 ++ b1 ++ b0) 66)) ∧
      (¬s.inStream (s.cursor.toNat + 2) 64 → exec .readBD s = .next (s.afterFault 1 (s.cursor.toNat + 2) 0))) ∧
    (s.streamField s.cursor.toNat 2 1 → exec .readBD s = .next (s.afterScalar s.cfg.bdCode1Pattern 2)) ∧
    (s.streamField s.cursor.toNat 2 2 → exec .readBD s = .next (s.afterScalar 0 2)) ∧
    (s.streamField s.cursor.toNat 2 3 →
      (s.cfg.bdCode3Policy = .fault → exec .readBD s = .next (s.afterFault 2 s.cursor.toNat 3)) ∧
      (s.cfg.bdCode3Policy = .zero → exec .readBD s = .next (s.afterScalar 0 2)))

/-- R165: READ_DD by prefix code: code 0 returns DEFAULT, code 1 patches its low 4 bytes, code 2 its low 6 bytes in the order
DD6_ORDER names and keeps the top 2, code 3 replaces all. DEFAULT itself and everything else stay. -/
def Obligations.DefaultPatchedDoubleByPrefix : Prop :=
  decode 0x13 = .ok .readDD ∧ ∀ (s : State) (b0 b1 b2 b3 b4 b5 b6 b7 : Byte), s.cfg.wf = true →
    (¬s.inStream s.cursor.toNat 2 → exec .readDD s = .next (s.afterFault 1 s.cursor.toNat 0)) ∧
    (s.streamField s.cursor.toNat 2 0 → exec .readDD s = .next (s.afterScalar s.dflt 2)) ∧
    (s.streamField s.cursor.toNat 2 1 →
      (s.streamBytes (s.cursor.toNat + 2) [b0, b1, b2, b3] →
        exec .readDD s = .next (s.afterScalar (s.dflt.extractLsb' 32 32 ++ b3 ++ b2 ++ b1 ++ b0) 34)) ∧
      (¬s.inStream (s.cursor.toNat + 2) 32 → exec .readDD s = .next (s.afterFault 1 (s.cursor.toNat + 2) 0))) ∧
    (s.streamField s.cursor.toNat 2 2 →
      (s.streamBytes (s.cursor.toNat + 2) [b0, b1, b2, b3, b4, b5] →
        ∃ v : Word, exec .readDD s = .next (s.afterScalar v 50) ∧
          v.extractLsb' 48 16 = s.dflt.extractLsb' 48 16 ∧
          ∀ (k o : Nat) (b : Byte), s.cfg.dd6Order[k]? = some o → [b0, b1, b2, b3, b4, b5][k]? = some b →
            v.extractLsb' (8 * o) 8 = b) ∧
      (¬s.inStream (s.cursor.toNat + 2) 48 → exec .readDD s = .next (s.afterFault 1 (s.cursor.toNat + 2) 0))) ∧
    (s.streamField s.cursor.toNat 2 3 →
      (s.streamBytes (s.cursor.toNat + 2) [b0, b1, b2, b3, b4, b5, b6, b7] →
        exec .readDD s = .next (s.afterScalar (b7 ++ b6 ++ b5 ++ b4 ++ b3 ++ b2 ++ b1 ++ b0) 66)) ∧
      (¬s.inStream (s.cursor.toNat + 2) 64 → exec .readDD s = .next (s.afterFault 1 (s.cursor.toNat + 2) 0)))

/-! ### Continuation-encoded integers -/

/-- R180, R181: READ_MC sums the 7-bit groups, takes bits 5:0 and the sign from the terminating byte, negates, and faults as
Collect() says. Nothing else changes. -/
def Obligations.SignedMCharValue : Prop :=
  decode 0x20 = .ok .readMC ∧ ∀ (s : State) (r : List Byte) (t : Byte), s.cfg.wf = true →
    ((∀ b ∈ r, b.getLsbD 7 = true) → t.getLsbD 7 = false → r.length < s.cfg.mcMaxBytes →
      s.streamBytes s.cursor.toNat (r ++ [t]) →
        exec .readMC s = .next (s.afterScalar
          (if t.getLsbD 6 = true then -BitVec.ofNat 64 (groups r + (t &&& 0x3F).toNat <<< (7 * r.length))
            else BitVec.ofNat 64 (groups r + (t &&& 0x3F).toNat <<< (7 * r.length))) (8 * (r.length + 1)))) ∧
    collectFaults .readMC s r

/-- R180, R182: READ_UMC sums the 7-bit groups, the terminating byte's among them, and faults as Collect() says. Nothing else
changes. -/
def Obligations.UnsignedMCharValue : Prop :=
  decode 0x21 = .ok .readUMC ∧ ∀ (s : State) (r : List Byte) (t : Byte), s.cfg.wf = true →
    ((∀ b ∈ r, b.getLsbD 7 = true) → t.getLsbD 7 = false → r.length < s.cfg.mcMaxBytes →
      s.streamBytes s.cursor.toNat (r ++ [t]) →
        exec .readUMC s = .next (s.afterScalar (BitVec.ofNat 64 (groups (r ++ [t]))) (8 * (r.length + 1)))) ∧
    collectFaults .readUMC s r

/-- R183: READ_MS, one word or two; a second continuation records CONT_LENGTH at the second word, detail 4. Nothing else
changes. -/
def Obligations.MShortByContinuation : Prop :=
  decode 0x22 = .ok .readMS ∧ ∀ (s : State) (b0 b1 b2 b3 : Byte),
    (¬s.inStream s.cursor.toNat 16 → exec .readMS s = .next (s.afterFault 1 s.cursor.toNat 0)) ∧
    (s.streamBytes s.cursor.toNat [b0, b1] →
      (b1.getLsbD 7 = false →
        exec .readMS s = .next (s.afterScalar (((b1 ++ b0 : BitVec 16) &&& 0x7FFF).setWidth 64) 16)) ∧
      (b1.getLsbD 7 = true →
        (¬s.inStream (s.cursor.toNat + 16) 16 → exec .readMS s = .next (s.afterFault 1 (s.cursor.toNat + 16) 0)) ∧
        (s.streamBytes (s.cursor.toNat + 16) [b2, b3] →
          (b3.getLsbD 7 = true → exec .readMS s = .next (s.afterFault 3 (s.cursor.toNat + 16) 4)) ∧
          (b3.getLsbD 7 = false →
            exec .readMS s = .next (s.afterScalar
              (((b1 ++ b0 : BitVec 16) &&& 0x7FFF).setWidth 64 ||| (((b3 ++ b2 : BitVec 16) &&& 0x7FFF).setWidth 64) <<< 15) 32)))))

/-- R185: the results of the continuation readers keep their bounds: 55-bit magnitudes, 56-bit sums, 30-bit M-shorts. -/
def Obligations.ContinuationResultsInRange : Prop :=
  ∀ s t : State, s.cfg.wf = true → s.fault = false → t.fault = false →
    (exec .readMC s = .next t → -(2 ^ 55 - 1) ≤ t.result.toInt ∧ t.result.toInt ≤ 2 ^ 55 - 1) ∧
    (exec .readUMC s = .next t → t.result.toNat < 2 ^ 56) ∧
    (exec .readMS s = .next t → t.result.toNat < 2 ^ 30) ∧
    (s.cfg.mcMaxBytes = 4 →
      (exec .readMC s = .next t → -(2 ^ 27) < t.result.toInt ∧ t.result.toInt < 2 ^ 27) ∧
      (exec .readUMC s = .next t → t.result.toNat < 2 ^ 28))

/-! ### Text and handles -/

/-- R200, R201: READ_TV: the length is a bit-short read as unsigned, the cap comes before any character byte, the bytes go to
PAYLOAD 0 to L - 1 and PLEN; RESULT, HCODE and everything else stay. -/
def Obligations.TextReader : Prop :=
  decode 0x30 = .ok .readTV ∧ ∀ (s : State) (l n pos : Nat) (r : List Byte),
    (bitShortCut s s.cursor.toNat pos → exec .readTV s = .next (s.afterFault 1 pos 0)) ∧
    (bitShortAt s s.cursor.toNat l n →
      (s.cfg.payloadCap < l → exec .readTV s = .next (s.afterFault 5 s.cursor.toNat l)) ∧
      (l ≤ s.cfg.payloadCap → ¬s.inStream (s.cursor.toNat + n) (8 * l) →
        exec .readTV s = .next (s.afterFault 1 (s.cursor.toNat + n) 0)) ∧
      (l ≤ s.cfg.payloadCap → r.length = l → s.streamBytes (s.cursor.toNat + n) r →
        ∃ t, exec .readTV s = .next t ∧ s.afterPayload s.hcode r (n + 8 * l) t))

/-- R200, R202, R203: READ_H: a 4-bit code, a 4-bit counter checked against HANDLE_MAX before any payload byte, the payload;
RESULT and everything else stay. -/
def Obligations.HandleReader : Prop :=
  decode 0x31 = .ok .readH ∧ ∀ (s : State) (code n : Nat) (r : List Byte),
    (¬s.inStream s.cursor.toNat 4 → exec .readH s = .next (s.afterFault 1 s.cursor.toNat 0)) ∧
    (s.streamField s.cursor.toNat 4 code →
      (¬s.inStream (s.cursor.toNat + 4) 4 → exec .readH s = .next (s.afterFault 1 (s.cursor.toNat + 4) 0)) ∧
      (s.streamField (s.cursor.toNat + 4) 4 n →
        (s.cfg.handleMax < n → exec .readH s = .next (s.afterFault 4 (s.cursor.toNat + 4) n)) ∧
        (n ≤ s.cfg.handleMax → ¬s.inStream (s.cursor.toNat + 8) (8 * n) →
          exec .readH s = .next (s.afterFault 1 (s.cursor.toNat + 8) 0)) ∧
        (n ≤ s.cfg.handleMax → r.length = n → s.streamBytes (s.cursor.toNat + 8) r →
          ∃ t, exec .readH s = .next t ∧ s.afterPayload (BitVec.ofNat 4 code) r (8 + 8 * n) t)))

/-- R200, R202, R204: READ_H0: an 8-bit counter, the code inferred as 0. -/
def Obligations.InferredCodeHandleReader : Prop :=
  decode 0x32 = .ok .readH0 ∧ ∀ (s : State) (n : Nat) (r : List Byte),
    (¬s.inStream s.cursor.toNat 8 → exec .readH0 s = .next (s.afterFault 1 s.cursor.toNat 0)) ∧
    (s.streamField s.cursor.toNat 8 n →
      (s.cfg.handleMax < n → exec .readH0 s = .next (s.afterFault 4 s.cursor.toNat n)) ∧
      (n ≤ s.cfg.handleMax → ¬s.inStream (s.cursor.toNat + 8) (8 * n) →
        exec .readH0 s = .next (s.afterFault 1 (s.cursor.toNat + 8) 0)) ∧
      (n ≤ s.cfg.handleMax → r.length = n → s.streamBytes (s.cursor.toNat + 8) r →
        ∃ t, exec .readH0 s = .next t ∧ s.afterPayload 0 r (8 + 8 * n) t))

/-! ### Whole-engine rules -/

/-- R222, R223, R224, R228: a command that ends has either committed or recorded one fault with a cause of R225. A commit
changes at most RESULT, HCODE, PLEN, PAYLOAD, CURSOR and BUSY: a scalar command leaves HCODE, PLEN and PAYLOAD (R37 to R39,
R44), a text or handle command leaves RESULT and every PAYLOAD byte at or above PLEN and gives every byte below PLEN a value
(R200), a text leaves HCODE. A fault changes nothing but its record and BUSY. -/
def Obligations.CommandsCommitOrFaultPrecisely : Prop :=
  ∀ (i : Instr) (s t : State), exec i s = .next t →
    (t = { s with
            result := t.result
            hcode := t.hcode
            plen := t.plen
            payload := t.payload
            cursor := t.cursor
            busy := false } ∧
      (i ∉ payloadCommands → t.hcode = s.hcode ∧ t.plen = s.plen ∧ t.payload = s.payload) ∧
      (i ∈ payloadCommands →
        t.result = s.result ∧ (∀ a, t.plen.toNat ≤ a → Memory.read t.payload a = Memory.read s.payload a) ∧
          ∀ a, a < t.plen.toNat → (Memory.read t.payload a).isSome = true) ∧
      (i = .readTV → t.hcode = s.hcode) ∧ (i = .readH0 → t.hcode = 0)) ∨
    ∃ (code : BitVec 4) (pos detail : Nat), 1 ≤ code.toNat ∧ code.toNat ≤ 5 ∧
      (pos = s.cursor.toNat ∨ pos ≤ 8 * s.buflen.toNat) ∧ t = s.afterFault code pos detail

/-- R226: a command raises only the causes its row of the table lists, and ILLEGAL_OP arises from no command. -/
def Obligations.CommandsRaiseOnlyTheirCauses : Prop :=
  ∀ (i : Instr) (s t : State), s.fault = false → exec i s = .next t → t.fault = true → t.cause ∈ causesOf s.cfg i

/-- R103, R222: an illegal command word is accepted like any other, and the engine then records ILLEGAL_OP at CURSOR, detail
0, reading no stream bit and changing nothing else. That the engine moves next where `turns` is empty is the
model's schedule (log 5). -/
def Obligations.IllegalWordsFault : Prop :=
  ∀ (s : State) (w : Word), illegalWord w →
    (s.busy = false → s.fault = false → hostWriteReg 0x00 w s = .next { s with pending := w, busy := true }) ∧
    (s.pending = w → s.busy = true → s.turns = [] → step s = .next (s.afterFault 6 s.cursor.toNat 0))

/-- R222: with BUSY = 1 and the engine to move, one step is the whole command that PENDING decodes to; a word placed by
`withFetchWord` is that command. `turns` is the model's schedule (log 5). -/
def Obligations.StepRunsDecodedInstruction : Prop :=
  ∀ (s : State) (i : Instr),
    (s.busy = true → decode s.pending = .ok i → s.turns = [] → step s = exec i s) ∧
    (∀ ts, s.busy = true → decode s.pending = .ok i → s.turns = .engine :: ts → step s = exec i { s with turns := ts }) ∧
    (∀ nbits w, decodeTableWord nbits w = some i → s.turns = [] →
      step (s.withFetchWord nbits w) = exec i { s with pending := tableWord nbits w, busy := true })

/-- R222, R258: where the host has written every byte below BUFLEN (R253), every command ends in a next state; a command is
refused only for a byte below BUFLEN that was never written (R254). -/
def Obligations.EveryCommandEnds : Prop :=
  ∀ (i : Instr) (s : State),
    (s.bufferLoaded → ∃ t, exec i s = .next t) ∧
    (∀ r, exec i s = .refused r → (∃ pos, r = .unwrittenBuf pos) ∧
      ∃ a, a < s.buflen.toNat ∧ Memory.read s.buf a = none)

/-- R34, R223: a command that commits moves CURSOR forward, to at most 8 * BUFLEN, by at least 2 bits for every command but
READ_B, which moves it by exactly 1 (R102, R141; log 11); a faulting command leaves it unchanged. -/
def Obligations.CursorMovesForward : Prop :=
  ∀ (i : Instr) (s t : State), s.Inv → s.fault = false → exec i s = .next t →
    (t.fault = true → t.cursor = s.cursor) ∧
    (t.fault = false → s.cursor.toNat < t.cursor.toNat ∧ t.cursor.toNat ≤ 8 * s.buflen.toNat ∧
      (i ≠ .readB → s.cursor.toNat + 2 ≤ t.cursor.toNat) ∧ (i = .readB → t.cursor.toNat = s.cursor.toNat + 1))

/-- R71, R77: no byte at or above BUFLEN is read: two buffers that agree below BUFLEN give the same outcome. -/
def Obligations.EngineReadsOnlyBelowBuflen : Prop :=
  ∀ (i : Instr) (s : State) (m : Memory), (∀ a, a < s.buflen.toNat → Memory.read m a = Memory.read s.buf a) →
    exec i { s with buf := m } = mapNext (fun t => { t with buf := m }) (exec i s)

/-! ### The invariant -/

/-- R250: the reset state meets the invariant, for every admissible choice of the parameters; so does State.reset. -/
def Obligations.ResetMeetsInvariant : Prop :=
  State.reset.Inv ∧ ∀ k : Config, k.wf = true → (State.resetOf k).Inv

/-- Every step keeps the invariant: BUFLEN <= BUF_CAP (R35), the phases (R220), CAUSE = 0 iff FAULT = 0 (R40), causes 0 to 6
(R225), PLEN and the payload it counts (R44), the memories' bounds and canonical form. -/
def Obligations.StepKeepsInvariant : Prop :=
  ∀ s t : State, s.Inv → step s = .next t → t.Inv

/-- R7: the parameters are fixed: no step changes them. -/
def Obligations.ParametersNeverChange : Prop :=
  ∀ s t : State, step s = .next t → t.cfg = s.cfg

/-! ### Reset -/

/-- R250, R251: the reset input, in any phase, gives every register 0 and both memories never written, with no effect of a
command in progress; PENDING is left open. The parameters, the host agent and the model's fields stay (log 12). -/
def Obligations.ResetStateAnyPhase : Prop :=
  ∀ (s : State) (ts : List Turn), s.turns = .reset :: ts →
    ∃ w : Word, step s = .next
      { cursor := 0, buflen := 0, dflt := 0, result := 0, hcode := 0, plen := 0, busy := false, fault := false,
        drop := false, cause := 0, faultCursor := 0, faultOp := 0, faultDetail := 0, pending := w, buf := [],
        payload := [], cfg := s.cfg, host := s.host, turns := ts, freeCount := s.freeCount }

/-! ### The host's accesses -/

/-- R221: a write to CMD is dropped while BUSY = 1 or FAULT = 1, else latched unchecked with BUSY set. -/
def Obligations.CommandAcceptance : Prop :=
  ∀ (s : State) (w : Word),
    (s.busy = true ∨ s.fault = true → hostWriteReg 0x00 w s = .next { s with drop := true }) ∧
    (s.busy = false ∧ s.fault = false → hostWriteReg 0x00 w s = .next { s with pending := w, busy := true })

/-- R41: a STATUS write clears FAULT and CAUSE by bit 1 and DROP by bit 2, in every phase; the fault record and everything
else stay. -/
def Obligations.StatusWriteOneToClear : Prop :=
  ∀ (s : State) (w : Word), ∃ t, hostWriteReg 0x08 w s = .next t ∧
    t = { s with fault := t.fault, cause := t.cause, drop := t.drop } ∧
    (w.getLsbD 1 = true → t.fault = false ∧ t.cause = 0) ∧
    (w.getLsbD 1 = false → t.fault = s.fault ∧ t.cause = s.cause) ∧
    (w.getLsbD 2 = true → t.drop = false) ∧ (w.getLsbD 2 = false → t.drop = s.drop)

/-- R231: the dropped host writes change nothing except DROP, the ignored ones nothing at all; while FAULT = 1 and BUSY = 0
the writes to CURSOR, BUFLEN, DEFAULT and BUF take effect. -/
def Obligations.DroppedAndIgnoredWrites : Prop :=
  ∀ (s : State) (w : Word) (v : Byte) (a off : Nat),
    (s.busy = true ∨ s.fault = true → hostWriteReg 0x00 w s = .next { s with drop := true }) ∧
    (s.busy = true → off ∈ [0x10, 0x18, 0x20] → hostWriteReg off w s = .next { s with drop := true }) ∧
    (s.busy = true → a < s.cfg.bufCap → hostWriteBuf a v s = .next { s with drop := true }) ∧
    (s.cfg.bufCap < w.toNat → hostWriteReg 0x18 w s = .next { s with drop := true }) ∧
    (off ∈ [0x28, 0x30, 0x38, 0x40, 0x48] → hostWriteReg off w s = .next s) ∧
    (0x50 ≤ off → off ≤ 0xF8 → off % 8 = 0 → hostWriteReg off w s = .next s) ∧
    (s.busy = false →
      hostWriteReg 0x10 w s = .next { s with cursor := w } ∧
      (w.toNat ≤ s.cfg.bufCap → hostWriteReg 0x18 w s = .next { s with buflen := w }) ∧
      hostWriteReg 0x20 w s = .next { s with dflt := w } ∧
      (a < s.cfg.bufCap → hostWriteBuf a v s = .next { s with buf := Memory.write s.buf a v }))

/-- R80: a byte written to BUF while BUSY = 0 is the byte read back, every other byte and every other piece of state stays. -/
def Obligations.BufferPortWritesOneByte : Prop :=
  ∀ (s : State) (a : Nat) (v : Byte), s.busy = false → a < s.cfg.bufCap →
    ∃ t, hostWriteBuf a v s = .next t ∧ t = { s with buf := t.buf } ∧
      ∀ b, Memory.read t.buf b = if b = a then some v else Memory.read s.buf b

/-- R33, R37 to R43, R49: what HostReadReg returns while BUSY = 0, with the layouts of STATUS and FAULT_INFO, and that no read
has a side effect on the block (R83). -/
def Obligations.RegisterReadsWhileIdle : Prop :=
  ∀ (s : State) (off : Nat) (v : Word), s.busy = false →
    (off, v) ∈ [(0x00, (0 : Word)),
      (0x08, BitVec.ofNat 64 (2 * s.fault.toNat + 4 * s.drop.toNat + 16 * s.cause.toNat)), (0x10, s.cursor),
      (0x18, s.buflen), (0x20, s.dflt), (0x28, s.result), (0x30, BitVec.ofNat 64 s.hcode.toNat),
      (0x38, BitVec.ofNat 64 s.plen.toNat), (0x40, s.faultCursor),
      (0x48, BitVec.ofNat 64 (s.faultOp.toNat + 65536 * s.faultDetail.toNat))] ∨
      (0x50 ≤ off ∧ off ≤ 0xF8 ∧ off % 8 = 0 ∧ v = 0) →
    notes (hostReadReg off s) s (.reg off v)

/-- R256: while BUSY = 1, STATUS, BUFLEN, DEFAULT, BUF, CMD and reserved offsets read true, and the reads of CURSOR, RESULT,
HCODE, PLEN, FAULT_CURSOR, FAULT_INFO and PAYLOAD return a free value (log 4); no read changes the block. That port
reads stand in the listing is log 24. -/
def Obligations.ReadsWhileBusy : Prop :=
  ∀ (s : State), s.busy = true →
    notes (hostReadReg 0x08 s) s
      (.reg 0x08 (BitVec.ofNat 64 (1 + 2 * s.fault.toNat + 4 * s.drop.toNat + 16 * s.cause.toNat))) ∧
    notes (hostReadReg 0x18 s) s (.reg 0x18 s.buflen) ∧ notes (hostReadReg 0x20 s) s (.reg 0x20 s.dflt) ∧
    notes (hostReadReg 0x00 s) s (.reg 0x00 0) ∧
    (∀ off, 0x50 ≤ off → off ≤ 0xF8 → off % 8 = 0 → notes (hostReadReg off s) s (.reg off 0)) ∧
    (∀ a b, a < s.cfg.bufCap → Memory.read s.buf a = some b → notes (hostReadBuf a s) s (.buf a b)) ∧
    (∀ off, off ∈ [0x10, 0x28, 0x30, 0x38, 0x40, 0x48] →
      notes (hostReadReg off s) s (.reg off (Config.freeWord s.freeCount))) ∧
    (∀ i, i < s.cfg.payloadCap → notes (hostReadPay i s) s (.pay i (Config.freeByte s.freeCount)))

/-- R80: while BUSY = 0 the ports return the byte that was written, and a free value (log 4) where none was. That they stand
in the listing is log 24. -/
def Obligations.PortReadsWhileIdle : Prop :=
  ∀ (s : State) (a : Nat), s.busy = false →
    (a < s.cfg.bufCap →
      (∀ b, Memory.read s.buf a = some b → notes (hostReadBuf a s) s (.buf a b)) ∧
      (Memory.read s.buf a = none → notes (hostReadBuf a s) s (.buf a (Config.freeByte s.freeCount)))) ∧
    (a < s.cfg.payloadCap →
      (∀ b, Memory.read s.payload a = some b → notes (hostReadPay a s) s (.pay a b)) ∧
      (Memory.read s.payload a = none → notes (hostReadPay a s) s (.pay a (Config.freeByte s.freeCount))))

/-- R80, R81: an access at a port index at or above the capacity, or at an offset that is unaligned or above 0xF8, is
refused, in every phase. That such a write is refused rather than dropped while BUSY = 1 (R231) is the model's choice: the
spec gives no order between the two rules (log 21). -/
def Obligations.IllFormedAccessesRefused : Prop :=
  ∀ (s : State) (w : Word) (v : Byte) (a : Nat),
    (s.cfg.bufCap ≤ a → hostWriteBuf a v s = .refused (.badPortIndex a) ∧ hostReadBuf a s = .refused (.badPortIndex a)) ∧
    (s.cfg.payloadCap ≤ a → hostReadPay a s = .refused (.badPortIndex a)) ∧
    (a % 8 ≠ 0 ∨ 0xF8 < a → hostWriteReg a w s = .refused (.badOffset a) ∧ hostReadReg a s = .refused (.badOffset a))

/-- R44, R37 to R39, R42, R43: no statement of the host writes RESULT, HCODE, PLEN, PAYLOAD, FAULT_CURSOR or FAULT_INFO, and
none clears BUSY. -/
def Obligations.HostNeverWritesEngineState : Prop :=
  ∀ s t : State, hostTurn s = .next t →
    t.result = s.result ∧ t.hcode = s.hcode ∧ t.plen = s.plen ∧ t.payload = s.payload ∧
      t.faultCursor = s.faultCursor ∧ t.faultOp = s.faultOp ∧ t.faultDetail = s.faultDetail ∧
      (s.busy = true → t.busy = true ∧ t.pending = s.pending ∧ t.cursor = s.cursor ∧ t.buflen = s.buflen ∧
        t.dflt = s.dflt ∧ t.buf = s.buf)

/-- R220, R230: once a fault is recorded, it and its record stay until the host clears FAULT by a STATUS write with bit 1 set,
or a reset. `turns` is the model's schedule (log 5). -/
def Obligations.FaultStaysUntilCleared : Prop :=
  ∀ s t : State, s.Inv → s.fault = true → step s = .next t →
    (t.fault = true ∧ t.busy = false ∧ t.cause = s.cause ∧ t.faultCursor = s.faultCursor ∧ t.faultOp = s.faultOp ∧
        t.faultDetail = s.faultDetail) ∨
      (∃ ts, s.turns = .reset :: ts) ∨
      ∃ w : Word, s.host.prog[s.host.pos]? = some (.wr 0x08 w) ∧ w.getLsbD 1 = true

/-! ### The order of the agents -/

/-- R85, R88, R256: whatever the host does while a command is pending, the engine then does to the block exactly what it would
have done at once; only DROP and the host side differ. -/
def Obligations.BusyAccessesLeaveTheCommandAlone : Prop :=
  ∀ s s' : State, s.Inv → s.busy = true → hostTurn s = .next s' →
    engineStep s' =
      mapNext (fun t => { t with drop := s'.drop, host := s'.host, freeCount := s'.freeCount }) (engineStep s)

/-- R222 (weak fairness): a step with a command pending ends it or uses up one scheduled turn and leaves it pending, so that
it is over after at most `turns.length + 1` steps that complete. `turns` is the model's schedule (log 5). -/
def Obligations.PendingCommandEndsInTime : Prop :=
  ∀ s t : State, s.busy = true → step s = .next t →
    t.busy = false ∨ (t.busy = true ∧ t.pending = s.pending ∧ t.turns.length + 1 = s.turns.length)

/-- R239, R260: with no command pending, no turn scheduled and the host's program ended, nothing changes; with no command
pending, the engine's own turn changes only the schedule. `turns` and an ended program's turns are the model's (log 5,
log 25). -/
def Obligations.IdleMachineRests : Prop :=
  ∀ s : State, (s.runOver → step s = .next s) ∧
    ∀ ts, s.busy = false → s.turns = .engine :: ts → step s = .next { s with turns := ts }

/-- R238: a step of one instance leaves every other instance unchanged, and it is the machine's step on that instance alone:
it answers a next system exactly when `step` answers a next state, which replaces the instance's own; it is refused exactly
when `step` is; and any other system with the same instance at `k` gives it the same next state. A system is the model's list
of States (log 17); that an "any value" read gives both the same value is the model's choice (log 27). -/
def Obligations.InstancesAreIndependent : Prop :=
  (∀ (sys sys' : List State) (k j : Nat), systemStep sys k = .next sys' → j ≠ k → sys'[j]? = sys[j]?) ∧
  ∀ (sys : List State) (k : Nat) (s : State), sys[k]? = some s →
    (∀ sys', systemStep sys k = .next sys' ↔ ∃ t, step s = .next t ∧ sys' = sys.set k t) ∧
    (∀ r, systemStep sys k = .refused r ↔ step s = .refused r) ∧
    ∀ other sys' : List State, other[k]? = some s → systemStep sys k = .next sys' →
      ∃ other', systemStep other k = .next other' ∧ other'[k]? = sys'[k]?

/-! ### Host programs -/

/-- R112: one turn of the host at each statement. The model's choices in it: a label that stands twice means its first place
(log 8), and a label or a jump takes a turn of its own (log 23). Of a jump to an absent label (log 8) and of one before any
`rd STATUS` (log 7) it states nothing. -/
def Obligations.HostStatements : Prop :=
  ∀ (s : State) (h : HostStmt), s.host.prog[s.host.pos]? = some h →
    (∀ off v t, h = .wr off v → hostWriteReg off v s = .next t →
      hostTurn s = .next { t with host := { t.host with pos := s.host.pos + 1 } }) ∧
    (∀ off t, h = .rd off → hostReadReg off s = .next t →
      hostTurn s = .next { t with host := { t.host with pos := s.host.pos + 1 } } ∧
      (off = 0x08 → t.host.lastStatus = some (statusWord s)) ∧ (off ≠ 0x08 → t.host.lastStatus = s.host.lastStatus)) ∧
    (∀ a v t, h = .wb a v → hostWriteBuf a v s = .next t →
      hostTurn s = .next { t with host := { t.host with pos := s.host.pos + 1 } }) ∧
    (∀ a t, h = .rb a → hostReadBuf a s = .next t →
      hostTurn s = .next { t with host := { t.host with pos := s.host.pos + 1 } }) ∧
    (∀ a t, h = .rp a → hostReadPay a s = .next t →
      hostTurn s = .next { t with host := { t.host with pos := s.host.pos + 1 } }) ∧
    (∀ l, h = .label l → hostTurn s = .next { s with host := { s.host with pos := s.host.pos + 1 } }) ∧
    (∀ (l : Label) (b : Nat), h = .jbusy l ∧ b = 0 ∨ h = .jfault l ∧ b = 1 →
      (∀ (w : Word) (p : Nat), s.host.lastStatus = some w → w.getLsbD b = true → s.host.prog[p]? = some (.label l) →
        (∀ q, q < p → s.host.prog[q]? ≠ some (.label l)) →
          hostTurn s = .next { s with host := { s.host with pos := p } }) ∧
      (∀ w, s.host.lastStatus = some w → w.getLsbD b = false →
        hostTurn s = .next { s with host := { s.host with pos := s.host.pos + 1 } })) ∧
    (∀ (l : Label) (p : Nat), h = .jmp l → s.host.prog[p]? = some (.label l) →
      (∀ q, q < p → s.host.prog[q]? ≠ some (.label l)) →
        hostTurn s = .next { s with host := { s.host with pos := p } }) ∧
    (h = .halt → hostTurn s = .next s)

/-- R113: the expansions of the pseudo-statements, the label of each "unique to each expansion": line j of a program (from 0)
takes the label number j, and in a program whose own statements use none of these labels no two places hold the same one.
Labels are the model's numbers (log 9). -/
def Obligations.PseudoStatementsExpand : Prop :=
  (∀ (n : Nat) (i : Instr) (a : Nat) (b : Byte) (bs : List Byte) (len pos : Word) (h : HostStmt),
    expandLine n .poll = [.label (.poll n), .rd 0x08, .jbusy (.poll n)] ∧
    expandLine n (.run i) = .wr 0x00 (encode i) :: expandLine n .poll ∧
    expandLine n .clrf = [.wr 0x08 0x2] ∧ expandLine n .clrd = [.wr 0x08 0x4] ∧
    expandLine n (.load a []) = [] ∧ expandLine n (.load a (b :: bs)) = .wb a b :: expandLine n (.load (a + 1) bs) ∧
    expandLine n (.setup len pos) = [.wr 0x18 len, .wr 0x10 pos] ∧ expandLine n (.bare i) = [.wr 0x00 (encode i)] ∧
    expandLine n (.stmt h) = [h]) ∧
  (∀ (n : Nat) (ls : List HostLine), expandFrom n ls = (ls.zipIdx n).flatMap fun l => expandLine l.2 l.1) ∧
  (∀ ls : List HostLine, expandProgram ls = expandFrom 0 ls) ∧
  ∀ (ls : List HostLine) (p q m : Nat), (∀ m, HostLine.stmt (.label (.poll m)) ∉ ls) →
    (expandProgram ls)[p]? = some (.label (.poll m)) → (expandProgram ls)[q]? = some (.label (.poll m)) → p = q
end

