-- ==== Sys2Proof/Laws/Decode.lean ====
section
/-! SUPPORT. When the decoder answers a command and when it does not. -/

namespace Sys2Proof

/-- The decoder answers a command exactly when RSVD is zero and the opcode byte is listed (R104). -/
theorem decode_eq_ok {w : Word} {i : Instr} : decode w = .ok i ↔ rsvdField w = 0 ∧ decodeOpc (opcField w) = some i := by
  unfold decode
  split
  · rename_i h; cases decodeOpc (opcField w) <;> simp [h]
  · rename_i h; exact ⟨by simp, fun ⟨h', _⟩ => absurd h' h⟩

/-- Every instruction is in the list of all. -/
theorem Instr.mem_all (i : Instr) : i ∈ Instr.all := by cases i <;> decide

/-- A word that decodes to nothing is refused with a reason. -/
theorem decode_error_of_not_ok {w : Word} (h : ∀ i, decode w ≠ .ok i) : ∃ e, decode w = .error e := by
  cases hd : decode w with
  | error e => exact ⟨e, rfl⟩
  | ok i => exact absurd hd (h i)

/-- What `decodeTableWord` answers, the decoder answers on the word's bits. -/
theorem decode_of_decodeTableWord {nbits w : Nat} {i : Instr} (h : decodeTableWord nbits w = some i) :
    decode (tableWord nbits w) = .ok i := by
  unfold decodeTableWord at h
  split at h <;> simp_all

end Sys2Proof
end

