-- ==== Sys2Proof/Laws/State.lean ====
section
/-! SUPPORT. One lemma per field per update of State, true by rfl, so that no proof unfolds a record update. -/

namespace Sys2Proof.Machine

/-! ### commit (R223) -/

@[simp] theorem commit_cursor (w : Staged) (c : Nat) (s : State) : (commit w c s).cursor = BitVec.ofNat 64 c := rfl
@[simp] theorem commit_buflen (w : Staged) (c : Nat) (s : State) : (commit w c s).buflen = s.buflen := rfl
@[simp] theorem commit_dflt (w : Staged) (c : Nat) (s : State) : (commit w c s).dflt = s.dflt := rfl
@[simp] theorem commit_result (w : Staged) (c : Nat) (s : State) : (commit w c s).result = w.result.getD s.result := rfl
@[simp] theorem commit_hcode (w : Staged) (c : Nat) (s : State) : (commit w c s).hcode = w.hcode.getD s.hcode := rfl
@[simp] theorem commit_plen (w : Staged) (c : Nat) (s : State) : (commit w c s).plen = w.plenAfter s.plen := rfl
@[simp] theorem commit_busy (w : Staged) (c : Nat) (s : State) : (commit w c s).busy = false := rfl
@[simp] theorem commit_fault (w : Staged) (c : Nat) (s : State) : (commit w c s).fault = s.fault := rfl
@[simp] theorem commit_drop (w : Staged) (c : Nat) (s : State) : (commit w c s).drop = s.drop := rfl
@[simp] theorem commit_cause (w : Staged) (c : Nat) (s : State) : (commit w c s).cause = s.cause := rfl
@[simp] theorem commit_faultCursor (w : Staged) (c : Nat) (s : State) : (commit w c s).faultCursor = s.faultCursor := rfl
@[simp] theorem commit_faultOp (w : Staged) (c : Nat) (s : State) : (commit w c s).faultOp = s.faultOp := rfl
@[simp] theorem commit_faultDetail (w : Staged) (c : Nat) (s : State) : (commit w c s).faultDetail = s.faultDetail := rfl
@[simp] theorem commit_pending (w : Staged) (c : Nat) (s : State) : (commit w c s).pending = s.pending := rfl
@[simp] theorem commit_buf (w : Staged) (c : Nat) (s : State) : (commit w c s).buf = s.buf := rfl
@[simp] theorem commit_payload (w : Staged) (c : Nat) (s : State) : (commit w c s).payload = w.payloadAfter s.payload := rfl
@[simp] theorem commit_cfg (w : Staged) (c : Nat) (s : State) : (commit w c s).cfg = s.cfg := rfl
@[simp] theorem commit_host (w : Staged) (c : Nat) (s : State) : (commit w c s).host = s.host := rfl
@[simp] theorem commit_turns (w : Staged) (c : Nat) (s : State) : (commit w c s).turns = s.turns := rfl
@[simp] theorem commit_freeCount (w : Staged) (c : Nat) (s : State) : (commit w c s).freeCount = s.freeCount := rfl

/-! ### raise Fault (R224) -/

@[simp] theorem raiseFault_cursor (k : Cause) (p d : Nat) (s : State) : (raiseFault k p d s).cursor = s.cursor := rfl
@[simp] theorem raiseFault_buflen (k : Cause) (p d : Nat) (s : State) : (raiseFault k p d s).buflen = s.buflen := rfl
@[simp] theorem raiseFault_dflt (k : Cause) (p d : Nat) (s : State) : (raiseFault k p d s).dflt = s.dflt := rfl
@[simp] theorem raiseFault_result (k : Cause) (p d : Nat) (s : State) : (raiseFault k p d s).result = s.result := rfl
@[simp] theorem raiseFault_hcode (k : Cause) (p d : Nat) (s : State) : (raiseFault k p d s).hcode = s.hcode := rfl
@[simp] theorem raiseFault_plen (k : Cause) (p d : Nat) (s : State) : (raiseFault k p d s).plen = s.plen := rfl
@[simp] theorem raiseFault_busy (k : Cause) (p d : Nat) (s : State) : (raiseFault k p d s).busy = false := rfl
@[simp] theorem raiseFault_fault (k : Cause) (p d : Nat) (s : State) : (raiseFault k p d s).fault = true := rfl
@[simp] theorem raiseFault_drop (k : Cause) (p d : Nat) (s : State) : (raiseFault k p d s).drop = s.drop := rfl
@[simp] theorem raiseFault_cause (k : Cause) (p d : Nat) (s : State) : (raiseFault k p d s).cause = k.code := rfl
@[simp] theorem raiseFault_faultCursor (k : Cause) (p d : Nat) (s : State) : (raiseFault k p d s).faultCursor = BitVec.ofNat 64 p := rfl
@[simp] theorem raiseFault_faultOp (k : Cause) (p d : Nat) (s : State) : (raiseFault k p d s).faultOp = s.pending.extractLsb' 0 8 := rfl
@[simp] theorem raiseFault_faultDetail (k : Cause) (p d : Nat) (s : State) : (raiseFault k p d s).faultDetail = BitVec.ofNat 16 d := rfl
@[simp] theorem raiseFault_pending (k : Cause) (p d : Nat) (s : State) : (raiseFault k p d s).pending = s.pending := rfl
@[simp] theorem raiseFault_buf (k : Cause) (p d : Nat) (s : State) : (raiseFault k p d s).buf = s.buf := rfl
@[simp] theorem raiseFault_payload (k : Cause) (p d : Nat) (s : State) : (raiseFault k p d s).payload = s.payload := rfl
@[simp] theorem raiseFault_cfg (k : Cause) (p d : Nat) (s : State) : (raiseFault k p d s).cfg = s.cfg := rfl
@[simp] theorem raiseFault_host (k : Cause) (p d : Nat) (s : State) : (raiseFault k p d s).host = s.host := rfl
@[simp] theorem raiseFault_turns (k : Cause) (p d : Nat) (s : State) : (raiseFault k p d s).turns = s.turns := rfl
@[simp] theorem raiseFault_freeCount (k : Cause) (p d : Nat) (s : State) : (raiseFault k p d s).freeCount = s.freeCount := rfl

/-! ### a dropped write (R231) -/

@[simp] theorem dropWrite_cursor (s : State) : (dropWrite s).cursor = s.cursor := rfl
@[simp] theorem dropWrite_buflen (s : State) : (dropWrite s).buflen = s.buflen := rfl
@[simp] theorem dropWrite_dflt (s : State) : (dropWrite s).dflt = s.dflt := rfl
@[simp] theorem dropWrite_result (s : State) : (dropWrite s).result = s.result := rfl
@[simp] theorem dropWrite_hcode (s : State) : (dropWrite s).hcode = s.hcode := rfl
@[simp] theorem dropWrite_plen (s : State) : (dropWrite s).plen = s.plen := rfl
@[simp] theorem dropWrite_busy (s : State) : (dropWrite s).busy = s.busy := rfl
@[simp] theorem dropWrite_fault (s : State) : (dropWrite s).fault = s.fault := rfl
@[simp] theorem dropWrite_drop (s : State) : (dropWrite s).drop = true := rfl
@[simp] theorem dropWrite_cause (s : State) : (dropWrite s).cause = s.cause := rfl
@[simp] theorem dropWrite_faultCursor (s : State) : (dropWrite s).faultCursor = s.faultCursor := rfl
@[simp] theorem dropWrite_faultOp (s : State) : (dropWrite s).faultOp = s.faultOp := rfl
@[simp] theorem dropWrite_faultDetail (s : State) : (dropWrite s).faultDetail = s.faultDetail := rfl
@[simp] theorem dropWrite_pending (s : State) : (dropWrite s).pending = s.pending := rfl
@[simp] theorem dropWrite_buf (s : State) : (dropWrite s).buf = s.buf := rfl
@[simp] theorem dropWrite_payload (s : State) : (dropWrite s).payload = s.payload := rfl
@[simp] theorem dropWrite_cfg (s : State) : (dropWrite s).cfg = s.cfg := rfl
@[simp] theorem dropWrite_host (s : State) : (dropWrite s).host = s.host := rfl
@[simp] theorem dropWrite_turns (s : State) : (dropWrite s).turns = s.turns := rfl
@[simp] theorem dropWrite_freeCount (s : State) : (dropWrite s).freeCount = s.freeCount := rfl

/-! ### a STATUS write (R41) -/

@[simp] theorem writeStatus_cursor (w : Word) (s : State) : (writeStatus w s).cursor = s.cursor := rfl
@[simp] theorem writeStatus_buflen (w : Word) (s : State) : (writeStatus w s).buflen = s.buflen := rfl
@[simp] theorem writeStatus_dflt (w : Word) (s : State) : (writeStatus w s).dflt = s.dflt := rfl
@[simp] theorem writeStatus_result (w : Word) (s : State) : (writeStatus w s).result = s.result := rfl
@[simp] theorem writeStatus_hcode (w : Word) (s : State) : (writeStatus w s).hcode = s.hcode := rfl
@[simp] theorem writeStatus_plen (w : Word) (s : State) : (writeStatus w s).plen = s.plen := rfl
@[simp] theorem writeStatus_busy (w : Word) (s : State) : (writeStatus w s).busy = s.busy := rfl
@[simp] theorem writeStatus_fault (w : Word) (s : State) : (writeStatus w s).fault = (s.fault && !w.getLsbD 1) := rfl
@[simp] theorem writeStatus_drop (w : Word) (s : State) : (writeStatus w s).drop = (s.drop && !w.getLsbD 2) := rfl
@[simp] theorem writeStatus_cause (w : Word) (s : State) : (writeStatus w s).cause = (if w.getLsbD 1 then 0 else s.cause) := rfl
@[simp] theorem writeStatus_faultCursor (w : Word) (s : State) : (writeStatus w s).faultCursor = s.faultCursor := rfl
@[simp] theorem writeStatus_faultOp (w : Word) (s : State) : (writeStatus w s).faultOp = s.faultOp := rfl
@[simp] theorem writeStatus_faultDetail (w : Word) (s : State) : (writeStatus w s).faultDetail = s.faultDetail := rfl
@[simp] theorem writeStatus_pending (w : Word) (s : State) : (writeStatus w s).pending = s.pending := rfl
@[simp] theorem writeStatus_buf (w : Word) (s : State) : (writeStatus w s).buf = s.buf := rfl
@[simp] theorem writeStatus_payload (w : Word) (s : State) : (writeStatus w s).payload = s.payload := rfl
@[simp] theorem writeStatus_cfg (w : Word) (s : State) : (writeStatus w s).cfg = s.cfg := rfl
@[simp] theorem writeStatus_host (w : Word) (s : State) : (writeStatus w s).host = s.host := rfl
@[simp] theorem writeStatus_turns (w : Word) (s : State) : (writeStatus w s).turns = s.turns := rfl
@[simp] theorem writeStatus_freeCount (w : Word) (s : State) : (writeStatus w s).freeCount = s.freeCount := rfl

/-! ### a value the host read (R112) -/

@[simp] theorem noteReading_cursor (r : Reading) (s : State) : (noteReading r s).cursor = s.cursor := rfl
@[simp] theorem noteReading_buflen (r : Reading) (s : State) : (noteReading r s).buflen = s.buflen := rfl
@[simp] theorem noteReading_dflt (r : Reading) (s : State) : (noteReading r s).dflt = s.dflt := rfl
@[simp] theorem noteReading_result (r : Reading) (s : State) : (noteReading r s).result = s.result := rfl
@[simp] theorem noteReading_hcode (r : Reading) (s : State) : (noteReading r s).hcode = s.hcode := rfl
@[simp] theorem noteReading_plen (r : Reading) (s : State) : (noteReading r s).plen = s.plen := rfl
@[simp] theorem noteReading_busy (r : Reading) (s : State) : (noteReading r s).busy = s.busy := rfl
@[simp] theorem noteReading_fault (r : Reading) (s : State) : (noteReading r s).fault = s.fault := rfl
@[simp] theorem noteReading_drop (r : Reading) (s : State) : (noteReading r s).drop = s.drop := rfl
@[simp] theorem noteReading_cause (r : Reading) (s : State) : (noteReading r s).cause = s.cause := rfl
@[simp] theorem noteReading_faultCursor (r : Reading) (s : State) : (noteReading r s).faultCursor = s.faultCursor := rfl
@[simp] theorem noteReading_faultOp (r : Reading) (s : State) : (noteReading r s).faultOp = s.faultOp := rfl
@[simp] theorem noteReading_faultDetail (r : Reading) (s : State) : (noteReading r s).faultDetail = s.faultDetail := rfl
@[simp] theorem noteReading_pending (r : Reading) (s : State) : (noteReading r s).pending = s.pending := rfl
@[simp] theorem noteReading_buf (r : Reading) (s : State) : (noteReading r s).buf = s.buf := rfl
@[simp] theorem noteReading_payload (r : Reading) (s : State) : (noteReading r s).payload = s.payload := rfl
@[simp] theorem noteReading_cfg (r : Reading) (s : State) : (noteReading r s).cfg = s.cfg := rfl
@[simp] theorem noteReading_host (r : Reading) (s : State) : (noteReading r s).host = { s.host with listing := s.host.listing ++ [r] } := rfl
@[simp] theorem noteReading_turns (r : Reading) (s : State) : (noteReading r s).turns = s.turns := rfl
@[simp] theorem noteReading_freeCount (r : Reading) (s : State) : (noteReading r s).freeCount = s.freeCount + 1 := rfl

/-! ### the last `rd STATUS` (R112) -/

@[simp] theorem noteStatus_cursor (off : Nat) (v : Word) (s : State) : (noteStatus off v s).cursor = s.cursor := rfl
@[simp] theorem noteStatus_buflen (off : Nat) (v : Word) (s : State) : (noteStatus off v s).buflen = s.buflen := rfl
@[simp] theorem noteStatus_dflt (off : Nat) (v : Word) (s : State) : (noteStatus off v s).dflt = s.dflt := rfl
@[simp] theorem noteStatus_result (off : Nat) (v : Word) (s : State) : (noteStatus off v s).result = s.result := rfl
@[simp] theorem noteStatus_hcode (off : Nat) (v : Word) (s : State) : (noteStatus off v s).hcode = s.hcode := rfl
@[simp] theorem noteStatus_plen (off : Nat) (v : Word) (s : State) : (noteStatus off v s).plen = s.plen := rfl
@[simp] theorem noteStatus_busy (off : Nat) (v : Word) (s : State) : (noteStatus off v s).busy = s.busy := rfl
@[simp] theorem noteStatus_fault (off : Nat) (v : Word) (s : State) : (noteStatus off v s).fault = s.fault := rfl
@[simp] theorem noteStatus_drop (off : Nat) (v : Word) (s : State) : (noteStatus off v s).drop = s.drop := rfl
@[simp] theorem noteStatus_cause (off : Nat) (v : Word) (s : State) : (noteStatus off v s).cause = s.cause := rfl
@[simp] theorem noteStatus_faultCursor (off : Nat) (v : Word) (s : State) : (noteStatus off v s).faultCursor = s.faultCursor := rfl
@[simp] theorem noteStatus_faultOp (off : Nat) (v : Word) (s : State) : (noteStatus off v s).faultOp = s.faultOp := rfl
@[simp] theorem noteStatus_faultDetail (off : Nat) (v : Word) (s : State) : (noteStatus off v s).faultDetail = s.faultDetail := rfl
@[simp] theorem noteStatus_pending (off : Nat) (v : Word) (s : State) : (noteStatus off v s).pending = s.pending := rfl
@[simp] theorem noteStatus_buf (off : Nat) (v : Word) (s : State) : (noteStatus off v s).buf = s.buf := rfl
@[simp] theorem noteStatus_payload (off : Nat) (v : Word) (s : State) : (noteStatus off v s).payload = s.payload := rfl
@[simp] theorem noteStatus_cfg (off : Nat) (v : Word) (s : State) : (noteStatus off v s).cfg = s.cfg := rfl
@[simp] theorem noteStatus_host (off : Nat) (v : Word) (s : State) : (noteStatus off v s).host = { s.host with lastStatus := lastStatusAfter off v s.host.lastStatus } := rfl
@[simp] theorem noteStatus_turns (off : Nat) (v : Word) (s : State) : (noteStatus off v s).turns = s.turns := rfl
@[simp] theorem noteStatus_freeCount (off : Nat) (v : Word) (s : State) : (noteStatus off v s).freeCount = s.freeCount := rfl

/-! ### the host's next statement (R112) -/

@[simp] theorem hostGoto_cursor (p : Nat) (s : State) : (hostGoto p s).cursor = s.cursor := rfl
@[simp] theorem hostGoto_buflen (p : Nat) (s : State) : (hostGoto p s).buflen = s.buflen := rfl
@[simp] theorem hostGoto_dflt (p : Nat) (s : State) : (hostGoto p s).dflt = s.dflt := rfl
@[simp] theorem hostGoto_result (p : Nat) (s : State) : (hostGoto p s).result = s.result := rfl
@[simp] theorem hostGoto_hcode (p : Nat) (s : State) : (hostGoto p s).hcode = s.hcode := rfl
@[simp] theorem hostGoto_plen (p : Nat) (s : State) : (hostGoto p s).plen = s.plen := rfl
@[simp] theorem hostGoto_busy (p : Nat) (s : State) : (hostGoto p s).busy = s.busy := rfl
@[simp] theorem hostGoto_fault (p : Nat) (s : State) : (hostGoto p s).fault = s.fault := rfl
@[simp] theorem hostGoto_drop (p : Nat) (s : State) : (hostGoto p s).drop = s.drop := rfl
@[simp] theorem hostGoto_cause (p : Nat) (s : State) : (hostGoto p s).cause = s.cause := rfl
@[simp] theorem hostGoto_faultCursor (p : Nat) (s : State) : (hostGoto p s).faultCursor = s.faultCursor := rfl
@[simp] theorem hostGoto_faultOp (p : Nat) (s : State) : (hostGoto p s).faultOp = s.faultOp := rfl
@[simp] theorem hostGoto_faultDetail (p : Nat) (s : State) : (hostGoto p s).faultDetail = s.faultDetail := rfl
@[simp] theorem hostGoto_pending (p : Nat) (s : State) : (hostGoto p s).pending = s.pending := rfl
@[simp] theorem hostGoto_buf (p : Nat) (s : State) : (hostGoto p s).buf = s.buf := rfl
@[simp] theorem hostGoto_payload (p : Nat) (s : State) : (hostGoto p s).payload = s.payload := rfl
@[simp] theorem hostGoto_cfg (p : Nat) (s : State) : (hostGoto p s).cfg = s.cfg := rfl
@[simp] theorem hostGoto_host (p : Nat) (s : State) : (hostGoto p s).host = { s.host with pos := p } := rfl
@[simp] theorem hostGoto_turns (p : Nat) (s : State) : (hostGoto p s).turns = s.turns := rfl
@[simp] theorem hostGoto_freeCount (p : Nat) (s : State) : (hostGoto p s).freeCount = s.freeCount := rfl

/-! ### a command word placed for the engine (R221) -/

@[simp] theorem withPending_cursor (w : Word) (s : State) : (withPending w s).cursor = s.cursor := rfl
@[simp] theorem withPending_buflen (w : Word) (s : State) : (withPending w s).buflen = s.buflen := rfl
@[simp] theorem withPending_dflt (w : Word) (s : State) : (withPending w s).dflt = s.dflt := rfl
@[simp] theorem withPending_result (w : Word) (s : State) : (withPending w s).result = s.result := rfl
@[simp] theorem withPending_hcode (w : Word) (s : State) : (withPending w s).hcode = s.hcode := rfl
@[simp] theorem withPending_plen (w : Word) (s : State) : (withPending w s).plen = s.plen := rfl
@[simp] theorem withPending_busy (w : Word) (s : State) : (withPending w s).busy = true := rfl
@[simp] theorem withPending_fault (w : Word) (s : State) : (withPending w s).fault = s.fault := rfl
@[simp] theorem withPending_drop (w : Word) (s : State) : (withPending w s).drop = s.drop := rfl
@[simp] theorem withPending_cause (w : Word) (s : State) : (withPending w s).cause = s.cause := rfl
@[simp] theorem withPending_faultCursor (w : Word) (s : State) : (withPending w s).faultCursor = s.faultCursor := rfl
@[simp] theorem withPending_faultOp (w : Word) (s : State) : (withPending w s).faultOp = s.faultOp := rfl
@[simp] theorem withPending_faultDetail (w : Word) (s : State) : (withPending w s).faultDetail = s.faultDetail := rfl
@[simp] theorem withPending_pending (w : Word) (s : State) : (withPending w s).pending = w := rfl
@[simp] theorem withPending_buf (w : Word) (s : State) : (withPending w s).buf = s.buf := rfl
@[simp] theorem withPending_payload (w : Word) (s : State) : (withPending w s).payload = s.payload := rfl
@[simp] theorem withPending_cfg (w : Word) (s : State) : (withPending w s).cfg = s.cfg := rfl
@[simp] theorem withPending_host (w : Word) (s : State) : (withPending w s).host = s.host := rfl
@[simp] theorem withPending_turns (w : Word) (s : State) : (withPending w s).turns = engineFirst s.turns := rfl
@[simp] theorem withPending_freeCount (w : Word) (s : State) : (withPending w s).freeCount = s.freeCount := rfl

/-! ### the reset input (R250) -/

@[simp] theorem resetEvent_cursor (s : State) : (resetEvent s).cursor = 0 := rfl
@[simp] theorem resetEvent_buflen (s : State) : (resetEvent s).buflen = 0 := rfl
@[simp] theorem resetEvent_dflt (s : State) : (resetEvent s).dflt = 0 := rfl
@[simp] theorem resetEvent_result (s : State) : (resetEvent s).result = 0 := rfl
@[simp] theorem resetEvent_hcode (s : State) : (resetEvent s).hcode = 0 := rfl
@[simp] theorem resetEvent_plen (s : State) : (resetEvent s).plen = 0 := rfl
@[simp] theorem resetEvent_busy (s : State) : (resetEvent s).busy = false := rfl
@[simp] theorem resetEvent_fault (s : State) : (resetEvent s).fault = false := rfl
@[simp] theorem resetEvent_drop (s : State) : (resetEvent s).drop = false := rfl
@[simp] theorem resetEvent_cause (s : State) : (resetEvent s).cause = 0 := rfl
@[simp] theorem resetEvent_faultCursor (s : State) : (resetEvent s).faultCursor = 0 := rfl
@[simp] theorem resetEvent_faultOp (s : State) : (resetEvent s).faultOp = 0 := rfl
@[simp] theorem resetEvent_faultDetail (s : State) : (resetEvent s).faultDetail = 0 := rfl
@[simp] theorem resetEvent_pending (s : State) : (resetEvent s).pending = 0 := rfl
@[simp] theorem resetEvent_buf (s : State) : (resetEvent s).buf = [] := rfl
@[simp] theorem resetEvent_payload (s : State) : (resetEvent s).payload = [] := rfl
@[simp] theorem resetEvent_cfg (s : State) : (resetEvent s).cfg = s.cfg := rfl
@[simp] theorem resetEvent_host (s : State) : (resetEvent s).host = s.host := rfl
@[simp] theorem resetEvent_turns (s : State) : (resetEvent s).turns = s.turns := rfl
@[simp] theorem resetEvent_freeCount (s : State) : (resetEvent s).freeCount = s.freeCount := rfl

/-! ### State.afterScalar -/

@[simp] theorem afterScalar_cursor (s : State) (v : Word) (n : Nat) : (s.afterScalar v n).cursor = s.cursor + BitVec.ofNat 64 n := rfl
@[simp] theorem afterScalar_buflen (s : State) (v : Word) (n : Nat) : (s.afterScalar v n).buflen = s.buflen := rfl
@[simp] theorem afterScalar_dflt (s : State) (v : Word) (n : Nat) : (s.afterScalar v n).dflt = s.dflt := rfl
@[simp] theorem afterScalar_result (s : State) (v : Word) (n : Nat) : (s.afterScalar v n).result = v := rfl
@[simp] theorem afterScalar_hcode (s : State) (v : Word) (n : Nat) : (s.afterScalar v n).hcode = s.hcode := rfl
@[simp] theorem afterScalar_plen (s : State) (v : Word) (n : Nat) : (s.afterScalar v n).plen = s.plen := rfl
@[simp] theorem afterScalar_busy (s : State) (v : Word) (n : Nat) : (s.afterScalar v n).busy = false := rfl
@[simp] theorem afterScalar_fault (s : State) (v : Word) (n : Nat) : (s.afterScalar v n).fault = s.fault := rfl
@[simp] theorem afterScalar_drop (s : State) (v : Word) (n : Nat) : (s.afterScalar v n).drop = s.drop := rfl
@[simp] theorem afterScalar_cause (s : State) (v : Word) (n : Nat) : (s.afterScalar v n).cause = s.cause := rfl
@[simp] theorem afterScalar_faultCursor (s : State) (v : Word) (n : Nat) : (s.afterScalar v n).faultCursor = s.faultCursor := rfl
@[simp] theorem afterScalar_faultOp (s : State) (v : Word) (n : Nat) : (s.afterScalar v n).faultOp = s.faultOp := rfl
@[simp] theorem afterScalar_faultDetail (s : State) (v : Word) (n : Nat) : (s.afterScalar v n).faultDetail = s.faultDetail := rfl
@[simp] theorem afterScalar_pending (s : State) (v : Word) (n : Nat) : (s.afterScalar v n).pending = s.pending := rfl
@[simp] theorem afterScalar_buf (s : State) (v : Word) (n : Nat) : (s.afterScalar v n).buf = s.buf := rfl
@[simp] theorem afterScalar_payload (s : State) (v : Word) (n : Nat) : (s.afterScalar v n).payload = s.payload := rfl
@[simp] theorem afterScalar_cfg (s : State) (v : Word) (n : Nat) : (s.afterScalar v n).cfg = s.cfg := rfl
@[simp] theorem afterScalar_host (s : State) (v : Word) (n : Nat) : (s.afterScalar v n).host = s.host := rfl
@[simp] theorem afterScalar_turns (s : State) (v : Word) (n : Nat) : (s.afterScalar v n).turns = s.turns := rfl
@[simp] theorem afterScalar_freeCount (s : State) (v : Word) (n : Nat) : (s.afterScalar v n).freeCount = s.freeCount := rfl

/-! ### State.afterFault -/

@[simp] theorem afterFault_cursor (s : State) (code : BitVec 4) (p d : Nat) : (s.afterFault code p d).cursor = s.cursor := rfl
@[simp] theorem afterFault_buflen (s : State) (code : BitVec 4) (p d : Nat) : (s.afterFault code p d).buflen = s.buflen := rfl
@[simp] theorem afterFault_dflt (s : State) (code : BitVec 4) (p d : Nat) : (s.afterFault code p d).dflt = s.dflt := rfl
@[simp] theorem afterFault_result (s : State) (code : BitVec 4) (p d : Nat) : (s.afterFault code p d).result = s.result := rfl
@[simp] theorem afterFault_hcode (s : State) (code : BitVec 4) (p d : Nat) : (s.afterFault code p d).hcode = s.hcode := rfl
@[simp] theorem afterFault_plen (s : State) (code : BitVec 4) (p d : Nat) : (s.afterFault code p d).plen = s.plen := rfl
@[simp] theorem afterFault_busy (s : State) (code : BitVec 4) (p d : Nat) : (s.afterFault code p d).busy = false := rfl
@[simp] theorem afterFault_fault (s : State) (code : BitVec 4) (p d : Nat) : (s.afterFault code p d).fault = true := rfl
@[simp] theorem afterFault_drop (s : State) (code : BitVec 4) (p d : Nat) : (s.afterFault code p d).drop = s.drop := rfl
@[simp] theorem afterFault_cause (s : State) (code : BitVec 4) (p d : Nat) : (s.afterFault code p d).cause = code := rfl
@[simp] theorem afterFault_faultCursor (s : State) (code : BitVec 4) (p d : Nat) : (s.afterFault code p d).faultCursor = BitVec.ofNat 64 p := rfl
@[simp] theorem afterFault_faultOp (s : State) (code : BitVec 4) (p d : Nat) : (s.afterFault code p d).faultOp = s.pending.extractLsb' 0 8 := rfl
@[simp] theorem afterFault_faultDetail (s : State) (code : BitVec 4) (p d : Nat) : (s.afterFault code p d).faultDetail = BitVec.ofNat 16 d := rfl
@[simp] theorem afterFault_pending (s : State) (code : BitVec 4) (p d : Nat) : (s.afterFault code p d).pending = s.pending := rfl
@[simp] theorem afterFault_buf (s : State) (code : BitVec 4) (p d : Nat) : (s.afterFault code p d).buf = s.buf := rfl
@[simp] theorem afterFault_payload (s : State) (code : BitVec 4) (p d : Nat) : (s.afterFault code p d).payload = s.payload := rfl
@[simp] theorem afterFault_cfg (s : State) (code : BitVec 4) (p d : Nat) : (s.afterFault code p d).cfg = s.cfg := rfl
@[simp] theorem afterFault_host (s : State) (code : BitVec 4) (p d : Nat) : (s.afterFault code p d).host = s.host := rfl
@[simp] theorem afterFault_turns (s : State) (code : BitVec 4) (p d : Nat) : (s.afterFault code p d).turns = s.turns := rfl
@[simp] theorem afterFault_freeCount (s : State) (code : BitVec 4) (p d : Nat) : (s.afterFault code p d).freeCount = s.freeCount := rfl

end Sys2Proof.Machine
end

