-- ==== Sys2Proof/Laws/Memory.lean ====
section
/-! SUPPORT. The laws of the byte memories: read after write, and that every write keeps the canonical form. -/

namespace Sys2Proof.Machine

@[simp] theorem Memory.read_nil (a : Nat) : Memory.read [] a = none := rfl

theorem Memory.read_cons (x a : Nat) (v : Byte) (m : Memory) :
    Memory.read ((x, v) :: m) a = if x = a then some v else Memory.read m a := rfl

/-- Reading back after a write, at the written address and at every other. -/
theorem Memory.read_write (m : Memory) (a b : Nat) (v : Byte) :
    Memory.read (Memory.write m a v) b = if a = b then some v else Memory.read m b := by
  induction m with
  | nil => simp [Memory.write, Memory.read]
  | cons c m ih =>
    obtain ⟨x, w⟩ := c
    simp only [Memory.write]
    split
    · simp [Memory.read_cons]
    · split
      · rename_i h; subst h; by_cases hb : x = b <;> simp [Memory.read_cons, hb]
      · rename_i h; simp only [Memory.read_cons, ih]
        by_cases hb : x = b
        · subst hb; simp [Ne.symm h]
        · simp [hb]

@[simp] theorem Memory.read_write_same (m : Memory) (a : Nat) (v : Byte) : Memory.read (Memory.write m a v) a = some v := by
  simp [Memory.read_write]

theorem Memory.read_write_other (m : Memory) {a b : Nat} (v : Byte) (h : a ≠ b) :
    Memory.read (Memory.write m a v) b = Memory.read m b := by
  simp [Memory.read_write, h]

/-- The tail of a canonical memory is canonical, and its addresses lie above the head's. -/
theorem Memory.wf_cons {x : Nat} {v : Byte} {m : Memory} :
    Memory.wf ((x, v) :: m) = true ↔ (∀ c ∈ m.head?, x < c.1) ∧ Memory.wf m = true := by
  cases m with
  | nil => simp [Memory.wf]
  | cons c m => obtain ⟨y, w⟩ := c; simp [Memory.wf]

theorem Memory.head_write (m : Memory) (a : Nat) (v : Byte) :
    ∀ c ∈ (Memory.write m a v).head?, c.1 = a ∨ ∃ d ∈ m.head?, d.1 = c.1 := by
  cases m with
  | nil => simp [Memory.write]
  | cons c m =>
    obtain ⟨x, w⟩ := c
    simp only [Memory.write]
    split
    · simp
    · split <;> simp

/-- A write keeps the canonical form. -/
theorem Memory.wf_write (m : Memory) (a : Nat) (v : Byte) (h : Memory.wf m = true) : Memory.wf (Memory.write m a v) = true := by
  induction m with
  | nil => rfl
  | cons c m ih =>
    obtain ⟨x, w⟩ := c
    have hm := Memory.wf_cons.1 h
    simp only [Memory.write]
    split
    · rename_i hlt; exact Memory.wf_cons.2 ⟨by simpa using hlt, h⟩
    · split
      · rename_i he; subst he; exact Memory.wf_cons.2 hm
      · rename_i h1 h2
        refine Memory.wf_cons.2 ⟨fun c hc => ?_, ih hm.2⟩
        rcases Memory.head_write m a v c hc with h3 | ⟨d, hd, h3⟩
        · omega
        · have := hm.1 d hd; omega

/-- A run of writes keeps the canonical form. -/
theorem Memory.wf_writeRun (m : Memory) (a : Nat) (r : List Byte) (h : Memory.wf m = true) :
    Memory.wf (Memory.writeRun m a r) = true := by
  induction r generalizing a with
  | nil => exact h
  | cons b bs ih => exact Memory.wf_write _ _ _ (ih (a + 1))

/-- Reading back after a run of writes: the run's bytes inside it, the old contents outside it. -/
theorem Memory.read_writeRun (m : Memory) (a b : Nat) (r : List Byte) :
    Memory.read (Memory.writeRun m a r) b = if a ≤ b ∧ b < a + r.length then r[b - a]? else Memory.read m b := by
  induction r generalizing a with
  | nil => simp [Memory.writeRun]
  | cons c cs ih =>
    simp only [Memory.writeRun, Memory.read_write, ih, List.length_cons]
    by_cases h : a = b
    · subst h; simp
    · by_cases h2 : a + 1 ≤ b ∧ b < a + 1 + cs.length
      · have h3 : b - a = (b - (a + 1)) + 1 := by omega
        rw [if_neg h, if_pos h2, if_pos (by omega), h3, List.getElem?_cons_succ]
      · rw [if_neg h, if_neg h2, if_neg (by omega)]

/-- Where every listed address is below `cap`, nothing is read at or above it. -/
theorem Memory.read_eq_none_above {m : Memory} {cap : Nat} (h : (m.all fun c => decide (c.1 < cap)) = true) {a : Nat}
    (ha : cap ≤ a) : Memory.read m a = none := by
  induction m with
  | nil => rfl
  | cons c m ih =>
    obtain ⟨x, v⟩ := c
    simp only [List.all_cons, Bool.and_eq_true, decide_eq_true_eq] at h
    rw [Memory.read_cons, if_neg (by omega)]
    exact ih h.2

theorem Memory.read_writeRun_zero (m : Memory) (i : Nat) (r : List Byte) (h : i < r.length) :
    Memory.read (Memory.writeRun m 0 r) i = some r[i] := by
  rw [Memory.read_writeRun, if_pos (by omega)]; simp [h]

theorem Memory.read_writeRun_above (m : Memory) (i : Nat) (r : List Byte) (h : r.length ≤ i) :
    Memory.read (Memory.writeRun m 0 r) i = Memory.read m i := by
  rw [Memory.read_writeRun, if_neg (by omega)]

end Sys2Proof.Machine
end

