-- ==== Sys2Proof/Laws/Ops.lean ====
section
/-! SUPPORT. What each shared operation can do, said once: the engine's reads, the end of a command, and the pseudocode behind
every instruction. -/

namespace Sys2Proof.Machine

/-! ### Got -/

@[simp] theorem Got.bind_ok {α β : Type} (v : α) (c : Nat) (f : α → Nat → Got β) : (Got.ok v c).bind f = f v c := rfl
@[simp] theorem Got.bind_raise {α β : Type} (k : Cause) (p d : Nat) (f : α → Nat → Got β) :
    (Got.raise k p d : Got α).bind f = .raise k p d := rfl
@[simp] theorem Got.bind_refuse {α β : Type} (r : Refusal) (f : α → Nat → Got β) :
    (Got.refuse r : Got α).bind f = .refuse r := rfl

theorem Got.bind_eq_ok {α β : Type} {x : Got α} {f : α → Nat → Got β} {w : β} {c' : Nat} :
    x.bind f = .ok w c' ↔ ∃ v c, x = .ok v c ∧ f v c = .ok w c' := by
  cases x <;> simp [Got.bind]

theorem Got.bind_eq_raise {α β : Type} {x : Got α} {f : α → Nat → Got β} {k : Cause} {p d : Nat} :
    x.bind f = .raise k p d ↔ x = .raise k p d ∨ ∃ v c, x = .ok v c ∧ f v c = .raise k p d := by
  cases x <;> simp [Got.bind]

theorem Got.bind_eq_refuse {α β : Type} {x : Got α} {f : α → Nat → Got β} {r : Refusal} :
    x.bind f = .refuse r ↔ x = .refuse r ∨ ∃ v c, x = .ok v c ∧ f v c = .refuse r := by
  cases x <;> simp [Got.bind]

/-! ### Fields and byte runs -/

theorem streamBit_le {m : Memory} {p b : Nat} (h : streamBit m p = some b) : b ≤ 1 := by
  simp only [streamBit] at h
  split at h
  · cases h; exact Nat.and_le_right
  · cases h

theorem field_succ_eq {m : Memory} {p n v : Nat} :
    field m p (n + 1) = some v ↔ ∃ h b, field m p n = some h ∧ streamBit m (p + n) = some b ∧ v = 2 * h + b := by
  simp only [field]
  split
  · rename_i h b h1 h2; simp [h1, h2, eq_comm]
  · rename_i h
    simp only [reduceCtorEq, false_iff]
    rintro ⟨x, b, h1, h2, -⟩
    exact h _ _ h1 h2

/-- A field of n bits is below 2^n. -/
theorem field_lt {m : Memory} {p n v : Nat} (h : field m p n = some v) : v < 2 ^ n := by
  induction n generalizing v with
  | zero => cases h; simp
  | succ n ih =>
    obtain ⟨x, b, h1, h2, rfl⟩ := field_succ_eq.1 h
    have := ih h1; have := streamBit_le h2; rw [Nat.pow_succ]; omega

/-- A stream bit reads one byte. -/
theorem streamBit_isSome {m : Memory} {p : Nat} : (streamBit m p).isSome = (Memory.read m (p / 8)).isSome := by
  simp only [streamBit]; split <;> simp_all

/-- A field is defined exactly when every byte it touches was written. -/
theorem field_isSome {m : Memory} {p n : Nat} :
    (field m p n).isSome = true ↔ ∀ k, k < n → (Memory.read m ((p + k) / 8)).isSome = true := by
  induction n with
  | zero => simp [field]
  | succ n ih =>
    constructor
    · intro h k hk
      obtain ⟨v, hv⟩ := Option.isSome_iff_exists.1 h
      obtain ⟨x, b, h1, h2, -⟩ := field_succ_eq.1 hv
      rcases Nat.lt_succ_iff_lt_or_eq.1 hk with h3 | rfl
      · exact ih.1 (by simp [h1]) k h3
      · rw [← streamBit_isSome, h2]; rfl
    · intro h
      obtain ⟨x, h1⟩ := Option.isSome_iff_exists.1 (ih.2 fun k hk => h k (by omega))
      obtain ⟨b, h2⟩ := Option.isSome_iff_exists.1 ((streamBit_isSome (m := m) (p := p + n)).trans (h n (by omega)))
      exact Option.isSome_iff_exists.2 ⟨2 * x + b, field_succ_eq.2 ⟨x, b, h1, h2, rfl⟩⟩

/-- Fields that see equal bytes are equal. -/
theorem field_congr {m m' : Memory} {p n : Nat}
    (h : ∀ k, k < n → Memory.read m ((p + k) / 8) = Memory.read m' ((p + k) / 8)) : field m p n = field m' p n := by
  induction n with
  | zero => rfl
  | succ n ih =>
    have h1 := ih fun k hk => h k (by omega)
    have h2 : streamBit m (p + n) = streamBit m' (p + n) := by simp only [streamBit, h n (by omega)]
    simp only [field, h1, h2]

theorem byteRun_succ_eq {m : Memory} {p n : Nat} {r : List Byte} :
    byteRun m p (n + 1) = some r ↔
      ∃ v r', field m p 8 = some v ∧ byteRun m (p + 8) n = some r' ∧ r = BitVec.ofNat 8 v :: r' := by
  simp only [byteRun]
  split
  · rename_i v r' h1 h2; simp [h1, h2, eq_comm]
  · rename_i h
    simp only [reduceCtorEq, false_iff]
    rintro ⟨x, b, h1, h2, -⟩
    exact h _ _ h1 h2

/-- A byte run of n bytes is the list r exactly when r has length n and holds the stream's bytes. -/
theorem byteRun_eq {m : Memory} {p n : Nat} {r : List Byte} :
    byteRun m p n = some r ↔
      r.length = n ∧ ∀ i (h : i < r.length), field m (p + 8 * i) 8 = some r[i].toNat := by
  induction n generalizing p r with
  | zero =>
    simp only [byteRun, Option.some.injEq]
    constructor
    · rintro rfl; simp
    · rintro ⟨h, -⟩; exact (List.length_eq_zero_iff.1 h).symm
  | succ n ih =>
    rw [byteRun_succ_eq]
    constructor
    · rintro ⟨v, r', h1, h2, rfl⟩
      obtain ⟨h3, h4⟩ := ih.1 h2
      refine ⟨by simp [h3], fun i hi => ?_⟩
      cases i with
      | zero =>
        have h5 : v % 2 ^ 8 = v := Nat.mod_eq_of_lt (field_lt h1)
        simp only [Nat.mul_zero, Nat.add_zero, List.getElem_cons_zero, BitVec.toNat_ofNat, h5, h1]
      | succ i =>
        have := h4 i (by simpa using hi)
        simpa [Nat.mul_add, Nat.add_assoc, Nat.add_comm 8] using this
    · rintro ⟨h1, h2⟩
      cases r with
      | nil => simp at h1
      | cons b bs =>
        have h0 : field m (p + 8 * 0) 8 = some b.toNat := h2 0 (by simp)
        refine ⟨b.toNat, bs, h0, ih.2 ⟨by simpa using h1, fun i hi => ?_⟩, by simp⟩
        have := h2 (i + 1) (by simpa using hi)
        simpa [Nat.mul_add, Nat.add_assoc, Nat.add_comm 8] using this

theorem byteRun_congr {m m' : Memory} {p n : Nat}
    (h : ∀ k, k < 8 * n → Memory.read m ((p + k) / 8) = Memory.read m' ((p + k) / 8)) :
    byteRun m p n = byteRun m' p n := by
  induction n generalizing p with
  | zero => rfl
  | succ n ih =>
    have h1 : field m p 8 = field m' p 8 := field_congr fun k hk => h k (by omega)
    have h2 := ih (p := p + 8) fun k hk => by
      have := h (k + 8) (by omega)
      rwa [show p + (k + 8) = p + 8 + k by omega] at this
    simp only [byteRun, h1, h2]

theorem byteRun_isSome {m : Memory} {p n : Nat} (h : ∀ k, k < 8 * n → (Memory.read m ((p + k) / 8)).isSome = true) :
    (byteRun m p n).isSome = true := by
  induction n generalizing p with
  | zero => rfl
  | succ n ih =>
    obtain ⟨v, h1⟩ := Option.isSome_iff_exists.1 (field_isSome.2 fun k hk => h k (by omega) : (field m p 8).isSome = true)
    obtain ⟨r, h2⟩ := Option.isSome_iff_exists.1 (ih (p := p + 8) fun k hk => by
      have := h (k + 8) (by omega)
      rwa [show p + (k + 8) = p + 8 + k by omega] at this)
    simp [byteRun, h1, h2]

theorem leValue_lt (r : List Byte) : leValue r < 256 ^ r.length := by
  induction r with
  | nil => simp [leValue]
  | cons b bs ih =>
    simp only [leValue, List.length_cons, Nat.pow_succ]
    have := b.isLt; omega

/-! ### ReadField and ReadBytes -/

theorem readField_eq_ok {s : State} {c n v c' : Nat} :
    readField s c n = .ok v c' ↔ c + n ≤ 8 * s.buflen.toNat ∧ field s.buf c n = some v ∧ c' = c + n := by
  simp only [readField]
  split
  · simp; omega
  · split
    · rename_i h1 _ _ h2; simp [h2, eq_comm]; omega
    · rename_i h1 _ h2; simp [h2]

theorem readField_eq_raise {s : State} {c n : Nat} {k : Cause} {p d : Nat} :
    readField s c n = .raise k p d ↔ 8 * s.buflen.toNat < c + n ∧ k = .outOfBounds ∧ p = c ∧ d = 0 := by
  simp only [readField]
  split
  · rename_i h; simp [eq_comm]; omega
  · rename_i h; split <;> simp <;> omega

theorem readField_eq_refuse {s : State} {c n : Nat} {r : Refusal} :
    readField s c n = .refuse r ↔ c + n ≤ 8 * s.buflen.toNat ∧ field s.buf c n = none ∧ r = .unwrittenBuf c := by
  simp only [readField]
  split
  · simp; omega
  · cases field s.buf c n <;> simp [eq_comm]; omega

theorem readBytes_eq_ok {s : State} {c n c' : Nat} {r : List Byte} :
    readBytes s c n = .ok r c' ↔
      (n = 0 ∨ c + 8 * n ≤ 8 * s.buflen.toNat) ∧ byteRun s.buf c n = some r ∧ c' = c + 8 * n := by
  simp only [readBytes]
  split
  · rename_i h; subst h; simp [byteRun, eq_comm]
  · split
    · simp; omega
    · rename_i h0 h1; split
      · rename_i h2; simp [h2, eq_comm, h0]; omega
      · rename_i h2; simp [h2]

theorem readBytes_eq_raise {s : State} {c n : Nat} {k : Cause} {p d : Nat} :
    readBytes s c n = .raise k p d ↔ n ≠ 0 ∧ 8 * s.buflen.toNat < c + 8 * n ∧ k = .outOfBounds ∧ p = c ∧ d = 0 := by
  simp only [readBytes]
  split
  · rename_i h; simp [h]
  · rename_i h0; split
    · rename_i h; simp [eq_comm, h0]; omega
    · rename_i h; split <;> simp <;> omega

theorem readBytes_eq_refuse {s : State} {c n : Nat} {r : Refusal} :
    readBytes s c n = .refuse r ↔
      c + 8 * n ≤ 8 * s.buflen.toNat ∧ n ≠ 0 ∧ byteRun s.buf c n = none ∧ r = .unwrittenBuf c := by
  simp only [readBytes]
  split
  · rename_i h; simp [h]
  · rename_i h0; split
    · simp; omega
    · cases byteRun s.buf c n <;> simp [eq_comm, h0]; omega

/-! ### The end of a command -/

/-- A command that answers a next state has committed or raised a fault (R222). -/
theorem endCommand_eq_next {s t : State} {x : Got Staged} :
    endCommand s x = .next t ↔
      (∃ w c, x = .ok w c ∧ t = commit w c s) ∨ ∃ k p d, x = .raise k p d ∧ t = raiseFault k p d s := by
  cases x <;> simp [endCommand, eq_comm]

theorem endCommand_eq_refused {s : State} {x : Got Staged} {r : Refusal} :
    endCommand s x = .refused r ↔ x = .refuse r := by
  cases x <;> simp [endCommand]

@[simp] theorem endCommand_ok (s : State) (w : Staged) (c : Nat) : endCommand s (.ok w c) = .next (commit w c s) := rfl
@[simp] theorem endCommand_raise (s : State) (k : Cause) (p d : Nat) :
    endCommand s (.raise k p d) = .next (raiseFault k p d s) := rfl
@[simp] theorem endCommand_refuse (s : State) (r : Refusal) : endCommand s (.refuse r) = .refused r := rfl

/-- The pseudocode of each instruction's rule, up to `commit` or `raise Fault`. -/
def pseudocode (s : State) : Instr → Got Staged
  | .readB => (readField s s.cursor.toNat 1).bind fun v c => .ok (.scalar (zext64 v)) c
  | .readBB => (readField s s.cursor.toNat 2).bind fun v c => .ok (.scalar (zext64 v)) c
  | .read3B => (readField s s.cursor.toNat 3).bind fun v c => .ok (.scalar (zext64 v)) c
  | .read4B => (readField s s.cursor.toNat 4).bind fun v c => .ok (.scalar (zext64 v)) c
  | .readRC => (readField s s.cursor.toNat 8).bind fun v c => .ok (.scalar (zext64 v)) c
  | .readRS => (readBytes s s.cursor.toNat 2).bind fun r c => .ok (.scalar ((BitVec.ofNat 16 (leValue r)).signExtend 64)) c
  | .readRL => (readBytes s s.cursor.toNat 4).bind fun r c => .ok (.scalar ((BitVec.ofNat 32 (leValue r)).signExtend 64)) c
  | .readRD => (readBytes s s.cursor.toNat 8).bind fun r c => .ok (.scalar (BitVec.ofNat 64 (leValue r))) c
  | .readBS => (bitShortValue s s.cursor.toNat).bind fun v c => .ok (.scalar (v.signExtend 64)) c
  | .readBL => (bitLongValue s s.cursor.toNat).bind fun v c => .ok (.scalar (v.signExtend 64)) c
  | .readBD => (bitDoubleValue s s.cursor.toNat).bind fun v c => .ok (.scalar v) c
  | .readDD => (patchedDefault s s.cursor.toNat).bind fun d c => .ok (.scalar (BitVec.ofNat 64 (leValue d))) c
  | .readMC => (collect s s.cursor.toNat).bind fun bs c => .ok (.scalar (signedMCharValue bs)) c
  | .readUMC => (collect s s.cursor.toNat).bind fun bs c => .ok (.scalar (zext64 (groupSum bs))) c
  | .readMS => (mShortValue s s.cursor.toNat).bind fun v c => .ok (.scalar (zext64 v)) c
  | .readTV => (textPayload s s.cursor.toNat).bind fun r c => .ok (.text r) c
  | .readH =>
    (readField s s.cursor.toNat 4).bind fun code pos =>
      (readField s pos 4).bind fun n c =>
        (handlePayload s pos n c).bind fun r c => .ok (.handle (BitVec.ofNat 4 code) r) c
  | .readH0 =>
    (readField s s.cursor.toNat 8).bind fun n c =>
      (handlePayload s s.cursor.toNat n c).bind fun r c => .ok (.handle 0 r) c

/-- Every meaning runs its pseudocode to commit or fault. -/
theorem exec_eq_endCommand (i : Instr) (s : State) : exec i s = endCommand s (pseudocode s i) := by
  cases i <;> rfl

end Sys2Proof.Machine
end

