-- ==== Sys2Proof/Laws/Operands.lean ====
section
/-! SUPPORT. The shared operations in the statements' words: what the reads answer on a stream that holds the bytes, what the
ends of a command leave, how byte lists assemble. -/

namespace Sys2Proof.Machine

/-! ### Reads on a stream that holds the bytes -/

theorem readField_of_streamField {s : State} {c n v : Nat} (h : s.streamField c n v) : readField s c n = .ok v (c + n) :=
  readField_eq_ok.2 ⟨h.1, h.2, rfl⟩

theorem readField_of_not_inStream {s : State} {c n : Nat} (h : ¬s.inStream c n) :
    readField s c n = .raise .outOfBounds c 0 := by
  simp only [State.inStream] at h
  exact readField_eq_raise.2 ⟨by omega, rfl, rfl, rfl⟩

theorem readBytes_of_streamBytes {s : State} {c : Nat} {r : List Byte} (h : s.streamBytes c r) :
    readBytes s c r.length = .ok r (c + 8 * r.length) :=
  readBytes_eq_ok.2 ⟨.inr h.1, byteRun_eq.2 ⟨rfl, h.2⟩, rfl⟩

theorem readBytes_of_not_inStream {s : State} {c n : Nat} (hn : n ≠ 0) (h : ¬s.inStream c (8 * n)) :
    readBytes s c n = .raise .outOfBounds c 0 := by
  simp only [State.inStream] at h
  exact readBytes_eq_raise.2 ⟨hn, by omega, rfl, rfl, rfl⟩

theorem State.streamField_lt {s : State} {p n v : Nat} (h : s.streamField p n v) : v < 2 ^ n := field_lt h.2

/-- A byte that stands in the stream is the field of 8 bits there. -/
theorem State.streamBytes_one {s : State} {p : Nat} {b : Byte} (h : s.streamBytes p [b]) : s.streamField p 8 b.toNat :=
  ⟨by simpa using h.1, by simpa using h.2 0 (by simp)⟩

/-- A byte run in the stream splits at any point. -/
theorem State.streamBytes_append {s : State} {p : Nat} {r q : List Byte} :
    s.streamBytes p (r ++ q) ↔ s.streamBytes (p + 8 * r.length) q ∧ s.holdsBytes p r := by
  simp only [State.streamBytes, State.inStream, State.holdsBytes, List.length_append]
  constructor
  · rintro ⟨h1, h2⟩
    refine ⟨⟨by omega, fun i hi => ?_⟩, fun i hi => ?_⟩
    · have := h2 (r.length + i) (by omega)
      rw [List.getElem_append_right (by omega)] at this
      simpa [Nat.mul_add, Nat.add_assoc] using this
    · have := h2 i (by omega)
      rwa [List.getElem_append_left hi] at this
  · rintro ⟨⟨h1, h2⟩, h3⟩
    refine ⟨by omega, fun i hi => ?_⟩
    by_cases h : i < r.length
    · rw [List.getElem_append_left h]; exact h3 i h
    · rw [List.getElem_append_right (by omega)]
      have := h2 (i - r.length) (by omega)
      rwa [show p + 8 * r.length + 8 * (i - r.length) = p + 8 * i by omega] at this

/-! ### The ends of a command -/

/-- A scalar commit is the state R223 describes. -/
theorem commit_scalar (s : State) (v : Word) (n : Nat) :
    commit (.scalar v) (s.cursor.toNat + n) s = s.afterScalar v n := by
  simp [commit, State.afterScalar, Staged.scalar, Staged.plenAfter, Staged.payloadAfter, BitVec.ofNat_add]

/-- A raised fault is the state R224 describes. -/
theorem raiseFault_eq (k : Cause) (p d : Nat) (s : State) : raiseFault k p d s = s.afterFault k.code p d := rfl

theorem afterPayload_commit (s : State) (w : Staged) (r : List Byte) (n : Nat) (hr : w.result = none)
    (hp : w.payload = some r) : s.afterPayload (w.hcode.getD s.hcode) r n (commit w (s.cursor.toNat + n) s) := by
  refine ⟨?_, fun i hi => ?_, fun i hi => ?_⟩
  · simp [commit, hr, hp, Staged.plenAfter, Staged.payloadAfter, BitVec.ofNat_add]
  · simpa [hp, Staged.payloadAfter] using Memory.read_writeRun_zero s.payload i r hi
  · simpa [hp, Staged.payloadAfter] using Memory.read_writeRun_above s.payload i r hi

/-! ### Little-endian assembly -/

theorem toNat_append_byte {w : Nat} (x : BitVec w) (b : Byte) : (x ++ b).toNat = b.toNat + 256 * x.toNat := by
  rw [BitVec.toNat_append, ← Nat.shiftLeft_add_eq_or_of_lt b.isLt, Nat.shiftLeft_eq]; omega

theorem ofNat_leValue_two (b0 b1 : Byte) : BitVec.ofNat 16 (leValue [b0, b1]) = b1 ++ b0 := by
  apply BitVec.eq_of_toNat_eq
  rw [BitVec.toNat_ofNat, toNat_append_byte]
  have := b0.isLt; have := b1.isLt
  simp only [leValue]; omega

theorem ofNat_leValue_four (b0 b1 b2 b3 : Byte) :
    BitVec.ofNat 32 (leValue [b0, b1, b2, b3]) = b3 ++ b2 ++ b1 ++ b0 := by
  apply BitVec.eq_of_toNat_eq
  rw [BitVec.toNat_ofNat, toNat_append_byte, toNat_append_byte, toNat_append_byte]
  have := b0.isLt; have := b1.isLt; have := b2.isLt; have := b3.isLt
  simp only [leValue]; omega

theorem ofNat_leValue_eight (b0 b1 b2 b3 b4 b5 b6 b7 : Byte) :
    BitVec.ofNat 64 (leValue [b0, b1, b2, b3, b4, b5, b6, b7]) = b7 ++ b6 ++ b5 ++ b4 ++ b3 ++ b2 ++ b1 ++ b0 := by
  apply BitVec.eq_of_toNat_eq
  rw [BitVec.toNat_ofNat, toNat_append_byte, toNat_append_byte, toNat_append_byte, toNat_append_byte, toNat_append_byte,
    toNat_append_byte, toNat_append_byte]
  have := b0.isLt; have := b1.isLt; have := b2.isLt; have := b3.isLt
  have := b4.isLt; have := b5.isLt; have := b6.isLt; have := b7.isLt
  simp only [leValue]; omega

end Sys2Proof.Machine
end

