-- ==== Sys2Proof/Laws/Host.lean ====
section
/-! SUPPORT. What one turn can do, said once: the host's turn by its effect on the block, the machine's turn by who moves. -/

namespace Sys2Proof.Machine

/-! ### Register views -/

theorem statusWord_eq (s : State) :
    statusWord s = BitVec.ofNat 64 (s.busy.toNat + 2 * s.fault.toNat + 4 * s.drop.toNat + 16 * s.cause.toNat) := by
  have key : ∀ (b f d : Bool) (c : Fin 16),
      ((0 : BitVec 56) ++ (BitVec.ofFin c : BitVec 4) ++ (0 : BitVec 1) ++ BitVec.ofBool d ++ BitVec.ofBool f ++
        BitVec.ofBool b : BitVec 64) = BitVec.ofNat 64 (b.toNat + 2 * f.toNat + 4 * d.toNat + 16 * c.val) := by decide
  exact key s.busy s.fault s.drop s.cause.toFin

theorem faultInfoWord_eq (s : State) :
    faultInfoWord s = BitVec.ofNat 64 (s.faultOp.toNat + 65536 * s.faultDetail.toNat) := by
  apply BitVec.eq_of_toNat_eq
  have := s.faultDetail.isLt
  have := s.faultOp.isLt
  have e : ((0 : BitVec 32) ++ s.faultDetail).toNat = s.faultDetail.toNat := by
    rw [BitVec.toNat_append]; simp
  simp only [faultInfoWord, toNat_append_byte, e]
  simp only [BitVec.toNat_ofNat]
  simp
  omega

/-- A reserved offset: writes are ignored, reads give 0 in any phase (R49). -/
theorem reserved_offset {off : Nat} (h1 : 0x50 ≤ off) (h2 : off ≤ 0xF8) (h3 : off % 8 = 0) (w : Word) (s : State) :
    writeReg off w s = s ∧ regValue off s = 0 ∧ engineOwned off = false := by
  obtain ⟨k, rfl⟩ : ∃ k, off = 8 * k := ⟨off / 8, by omega⟩
  have : k < 32 := by omega
  have : 10 ≤ k := by omega
  interval_cases k <;> exact ⟨rfl, rfl, rfl⟩

/-! ### One turn of the host -/

/-- What one turn of the host can do to the machine: note something of its own, set DROP, write STATUS, have a command
accepted, or write one of the block's inputs while BUSY = 0. -/
inductive HostEffect (s : State) : State → Prop where
  | own (h : HostAgent) (n : Nat) : HostEffect s { s with host := h, freeCount := n }
  | dropped (h : HostAgent) : HostEffect s { s with drop := true, host := h }
  | status (w : Word) (h : HostAgent) (hp : s.host.prog[s.host.pos]? = some (.wr 0x08 w)) :
      HostEffect s { writeStatus w s with host := h }
  | cmd (w : Word) (h : HostAgent) (hb : s.busy = false) (hf : s.fault = false) :
      HostEffect s { s with pending := w, busy := true, host := h }
  | cursor (w : Word) (h : HostAgent) (hb : s.busy = false) : HostEffect s { s with cursor := w, host := h }
  | buflen (w : Word) (h : HostAgent) (hb : s.busy = false) (hw : w.toNat ≤ s.cfg.bufCap) :
      HostEffect s { s with buflen := w, host := h }
  | dflt (w : Word) (h : HostAgent) (hb : s.busy = false) : HostEffect s { s with dflt := w, host := h }
  | buf (a : Nat) (v : Byte) (h : HostAgent) (hb : s.busy = false) (ha : a < s.cfg.bufCap) :
      HostEffect s { s with buf := Memory.write s.buf a v, host := h }

theorem thenAdvance_eq_next {x : Host.Outcome State Fault Refusal} {t : State} :
    thenAdvance x = .next t ↔ ∃ u, x = .next u ∧ t = hostGoto (u.host.pos + 1) u := by
  cases x <;> simp [thenAdvance, eq_comm]

theorem hostJump_effect {l : Label} {s t : State} (h : hostJump l s = .next t) : HostEffect s t := by
  unfold hostJump at h
  split at h
  · cases h; exact HostEffect.own _ s.freeCount
  · cases h

/-- Every turn of the host that completes has one of the effects. -/
theorem hostTurn_effect {s t : State} (h : hostTurn s = .next t) : HostEffect s t := by
  unfold hostTurn at h
  split at h
  case h_2 => cases h; exact HostEffect.own s.host s.freeCount
  rename_i st hst
  cases st with
  | wr off v =>
    obtain ⟨u, hu, rfl⟩ := thenAdvance_eq_next.1 h
    unfold hostWriteReg at hu
    split at hu
    case isFalse => cases hu
    cases hu
    unfold writeReg
    split
    · unfold writeCmd; split
      · exact HostEffect.dropped _
      · rename_i h; simp at h; exact HostEffect.cmd _ _ h.1 h.2
    · exact HostEffect.status _ _ hst
    · unfold writeIfIdle; split
      · exact HostEffect.dropped _
      · rename_i h; simp at h; exact HostEffect.cursor _ _ h
    · unfold writeBuflen; split
      · exact HostEffect.dropped _
      · unfold writeIfIdle; split
        · exact HostEffect.dropped _
        · rename_i h1 h; simp at h h1; exact HostEffect.buflen _ _ h h1
    · unfold writeIfIdle; split
      · exact HostEffect.dropped _
      · rename_i h; simp at h; exact HostEffect.dflt _ _ h
    · exact HostEffect.own _ s.freeCount
  | rd off =>
    obtain ⟨u, hu, rfl⟩ := thenAdvance_eq_next.1 h
    unfold hostReadReg at hu
    split at hu <;> cases hu
    exact HostEffect.own _ _
  | wb a v =>
    obtain ⟨u, hu, rfl⟩ := thenAdvance_eq_next.1 h
    unfold hostWriteBuf at hu
    split at hu <;> cases hu
    unfold writeIfIdle; split
    · exact HostEffect.dropped _
    · rename_i h1 h; simp at h; exact HostEffect.buf _ _ _ h h1
  | rb a =>
    obtain ⟨u, hu, rfl⟩ := thenAdvance_eq_next.1 h
    unfold hostReadBuf at hu
    split at hu <;> cases hu
    exact HostEffect.own _ _
  | rp a =>
    obtain ⟨u, hu, rfl⟩ := thenAdvance_eq_next.1 h
    unfold hostReadPay at hu
    split at hu <;> cases hu
    exact HostEffect.own _ _
  | label l => cases h; exact HostEffect.own _ s.freeCount
  | jbusy l =>
    simp only [hostStmt] at h; split at h
    · exact hostJump_effect h
    · cases h; exact HostEffect.own _ s.freeCount
  | jfault l =>
    simp only [hostStmt] at h; split at h
    · exact hostJump_effect h
    · cases h; exact HostEffect.own _ s.freeCount
  | jmp l => exact hostJump_effect h
  | halt => cases h; exact HostEffect.own s.host s.freeCount

/-- The index of a label is its first place in the program. -/
theorem labelIndex_eq_some (l : Label) (ps : List HostStmt) (p : Nat) (h : ps[p]? = some (.label l))
    (hq : ∀ q, q < p → ps[q]? ≠ some (.label l)) : labelIndex l ps = some p := by
  induction ps generalizing p with
  | nil => simp at h
  | cons x ps ih =>
    cases p with
    | zero => simp at h; subst h; simp [labelIndex]
    | succ p =>
      have h0 := hq 0 (by omega)
      have := ih p (by simpa using h) fun q hq' => by simpa using hq (q + 1) (by omega)
      cases x with
      | label m => simp at h0; simp [labelIndex, h0, this]
      | _ => simp [labelIndex, this]

/-- A line's expansion holds a poll label only of the line's own number, unless the line is that label itself. -/
theorem label_mem_expandLine {n m : Nat} {l : HostLine} (h : HostStmt.label (.poll m) ∈ expandLine n l) :
    m = n ∨ l = .stmt (.label (.poll m)) := by
  cases l with
  | stmt h' => simp [expandLine] at h; exact .inr (by rw [← h])
  | load a bs =>
    exfalso
    simp only [expandLine] at h
    induction bs generalizing a with
    | nil => simp [loadStmts] at h
    | cons b bs ih => exact ih (a + 1) (by simpa [loadStmts] using h)
  | _ => simp [expandLine, pollStmts] at h <;> exact .inl h

/-! ### One turn of the machine -/

/-- Who moved in a step that completed, and from which state. -/
theorem step_cases {s t : State} (h : step s = .next t) :
    (s.turns = [] ∧ s.busy = false ∧ hostTurn s = .next t) ∨
    (s.turns = [] ∧ s.busy = true ∧ engineStep s = .next t) ∨
    (∃ ts, s.turns = .host :: ts ∧ hostTurn { s with turns := ts } = .next t) ∨
    (∃ ts, s.turns = .engine :: ts ∧ s.busy = false ∧ t = { s with turns := ts }) ∨
    (∃ ts, s.turns = .engine :: ts ∧ s.busy = true ∧ engineStep { s with turns := ts } = .next t) ∨
    (∃ ts, s.turns = .reset :: ts ∧ t = resetEvent { s with turns := ts }) := by
  unfold step takeTurn at h
  split at h
  · rename_i ht
    split at h
    · rename_i hb; exact .inr (.inl ⟨ht, hb, h⟩)
    · rename_i hb; exact .inl ⟨ht, by simpa using hb, h⟩
  · rename_i ts ht; exact .inr (.inr (.inl ⟨ts, ht, h⟩))
  · rename_i ts ht
    unfold engineTurn at h
    split at h
    · rename_i hb; exact .inr (.inr (.inr (.inr (.inl ⟨ts, ht, hb, h⟩))))
    · rename_i hb; cases h; exact .inr (.inr (.inr (.inl ⟨ts, ht, by simpa using hb, rfl⟩)))
  · rename_i ts ht; cases h; exact .inr (.inr (.inr (.inr (.inr ⟨ts, ht, rfl⟩))))

/-- What the engine's step can do: run the decoded command, or record ILLEGAL_OP. -/
theorem engineStep_cases {s t : State} (h : engineStep s = .next t) :
    (∃ i, decode s.pending = .ok i ∧ exec i s = .next t) ∨
      (∃ e, decode s.pending = .error e ∧ t = raiseFault .illegalOp s.cursor.toNat 0 s) := by
  unfold engineStep at h
  split at h
  · rename_i i hi; exact .inl ⟨i, hi, h⟩
  · rename_i e he; cases h; exact .inr ⟨e, he, rfl⟩

end Sys2Proof.Machine
end

