-- ==== Sys2Proof/Laws/Meanings.lean ====
section
/-! SUPPORT. What a piece of pseudocode can do, said once: how far it moves the local cursor, what it may raise and where, why
it may be refused, and that it depends on CURSOR, BUFLEN, DEFAULT, the parameters and the bytes below BUFLEN alone. -/

namespace Sys2Proof.Machine

/-! ### Cursor, causes and refusals -/

/-- What a piece of pseudocode started at the local cursor `c` can do: it moves forward by at least `adv` bits and not beyond
the stream's end, raises only causes of `ks`, at `c` or inside the stream, and is refused only for a never-written byte below
BUFLEN. -/
structure Got.Within (s : State) (c adv : Nat) (ks : List Cause) {α : Type} (x : Got α) : Prop where
  onOk : ∀ v c', x = .ok v c' → c + adv ≤ c' ∧ c' ≤ max c (8 * s.buflen.toNat)
  onRaise : ∀ k p d, x = .raise k p d → k ∈ ks ∧ (p = c ∨ p ≤ 8 * s.buflen.toNat)
  onRefuse : ∀ r, x = .refuse r → (∃ pos, r = .unwrittenBuf pos) ∧ ∃ a, a < s.buflen.toNat ∧ Memory.read s.buf a = none

theorem Got.within_ok {s : State} {c c' : Nat} {ks : List Cause} {α : Type} (v : α) (h : c ≤ c')
    (h2 : c' ≤ max c (8 * s.buflen.toNat)) : Got.Within s c 0 ks (.ok v c') :=
  ⟨(fun _ _ e => by cases e; exact ⟨h, h2⟩), (fun _ _ _ e => by cases e), (fun _ e => by cases e)⟩

theorem Got.within_raise {s : State} {c adv p d : Nat} {k : Cause} {ks : List Cause} {α : Type} (h : k ∈ ks)
    (h2 : p = c ∨ p ≤ 8 * s.buflen.toNat) : Got.Within s c adv ks (.raise k p d : Got α) :=
  ⟨(fun _ _ e => by cases e), (fun _ _ _ e => by cases e; exact ⟨h, h2⟩), (fun _ e => by cases e)⟩

/-- The bits two pieces consume add up. -/
theorem Got.Within.bind_add {s : State} {c a b : Nat} {ks : List Cause} {α β : Type} {x : Got α} {f : α → Nat → Got β}
    (hx : Got.Within s c a ks x) (hf : ∀ v c', x = .ok v c' → Got.Within s c' b ks (f v c')) :
    Got.Within s c (a + b) ks (x.bind f) where
  onOk w c'' h := by
    obtain ⟨v, c', h1, h2⟩ := Got.bind_eq_ok.1 h
    have h3 := hx.onOk v c' h1
    have h4 := (hf v c' h1).onOk w c'' h2
    omega
  onRaise k p d h := by
    rcases Got.bind_eq_raise.1 h with h | ⟨v, c', h1, h2⟩
    · exact hx.onRaise k p d h
    · have h3 := hx.onOk v c' h1
      have h4 := (hf v c' h1).onRaise k p d h2
      exact ⟨h4.1, by omega⟩
  onRefuse r h := by
    rcases Got.bind_eq_refuse.1 h with h | ⟨v, c', h1, h2⟩
    · exact hx.onRefuse r h
    · exact (hf v c' h1).onRefuse r h2

theorem Got.Within.bind {s : State} {c adv : Nat} {ks : List Cause} {α β : Type} {x : Got α} {f : α → Nat → Got β}
    (hx : Got.Within s c adv ks x) (hf : ∀ v c', x = .ok v c' → Got.Within s c' 0 ks (f v c')) :
    Got.Within s c adv ks (x.bind f) := hx.bind_add hf

theorem readField_within {s : State} {c n adv : Nat} {ks : List Cause} (h : Cause.outOfBounds ∈ ks) (hn : adv ≤ n) :
    Got.Within s c adv ks (readField s c n) where
  onOk v c' e := by obtain ⟨h1, h2, rfl⟩ := readField_eq_ok.1 e; omega
  onRaise k p d e := by obtain ⟨h1, rfl, rfl, rfl⟩ := readField_eq_raise.1 e; exact ⟨h, .inl rfl⟩
  onRefuse r e := by
    obtain ⟨h1, h2, rfl⟩ := readField_eq_refuse.1 e
    refine ⟨⟨c, rfl⟩, ?_⟩
    by_contra hall
    have : (field s.buf c n).isSome = true := field_isSome.2 fun k hk => by
      cases hr : Memory.read s.buf ((c + k) / 8) with
      | some b => rfl
      | none => exact absurd ⟨(c + k) / 8, by omega, hr⟩ hall
    rw [h2] at this; cases this

theorem readBytes_within {s : State} {c n adv : Nat} {ks : List Cause} (h : Cause.outOfBounds ∈ ks) (hn : adv ≤ 8 * n) :
    Got.Within s c adv ks (readBytes s c n) where
  onOk v c' e := by obtain ⟨h1, h2, rfl⟩ := readBytes_eq_ok.1 e; omega
  onRaise k p d e := by obtain ⟨h0, h1, rfl, rfl, rfl⟩ := readBytes_eq_raise.1 e; exact ⟨h, .inl rfl⟩
  onRefuse r e := by
    obtain ⟨h1, h0, h2, rfl⟩ := readBytes_eq_refuse.1 e
    refine ⟨⟨c, rfl⟩, ?_⟩
    by_contra hall
    have : (byteRun s.buf c n).isSome = true := byteRun_isSome fun k hk => by
      cases hr : Memory.read s.buf ((c + k) / 8) with
      | some b => rfl
      | none => exact absurd ⟨(c + k) / 8, by omega, hr⟩ hall
    rw [h2] at this; cases this

theorem bitShortValue_within {s : State} {c adv : Nat} {ks : List Cause} (h : Cause.outOfBounds ∈ ks) (ha : adv ≤ 2) :
    Got.Within s c adv ks (bitShortValue s c) := by
  refine (readField_within h ha).bind fun P c' hP => ?_
  split
  · exact (readBytes_within h (by omega)).bind fun _ _ _ => Got.within_ok _ (by omega) (by omega)
  · exact (readField_within h (by omega)).bind fun _ _ _ => Got.within_ok _ (by omega) (by omega)
  · exact Got.within_ok _ (by omega) (by omega)
  · exact Got.within_ok _ (by omega) (by omega)

theorem collectFrom_within {s : State} {left n c adv : Nat} {ks : List Cause} (h : Cause.outOfBounds ∈ ks)
    (h3 : Cause.contLength ∈ ks) (ha : adv ≤ 8) : Got.Within s c adv ks (collectFrom s left n c) := by
  induction left generalizing n c adv with
  | zero =>
    refine (readField_within h ha).bind fun v c' hv => ?_
    have := readField_eq_ok.1 hv
    split
    · exact Got.within_raise h3 (.inr (by omega))
    · exact Got.within_ok _ (by omega) (by omega)
  | succ left ih =>
    refine (readField_within h ha).bind fun v c' hv => ?_
    split
    · exact (ih (by omega)).bind fun _ _ _ => Got.within_ok _ (by omega) (by omega)
    · exact Got.within_ok _ (by omega) (by omega)

theorem handlePayload_within {s : State} {pos n c : Nat} {ks : List Cause} (h : Cause.outOfBounds ∈ ks)
    (h3 : Cause.handleCap ∈ ks) (hp : pos = c ∨ pos ≤ 8 * s.buflen.toNat) :
    Got.Within s c 0 ks (handlePayload s pos n c) := by
  unfold handlePayload
  split
  · exact Got.within_raise h3 (by omega)
  · exact readBytes_within h (by omega)

/-- The causes each command's pseudocode names. -/
def raises (k : Config) : Instr → List Cause
  | .readB | .readBB | .read3B | .read4B | .readRC | .readRS | .readRL | .readRD | .readBS | .readDD => [.outOfBounds]
  | .readBL => [.outOfBounds, .malformedPrefix]
  | .readBD => if k.bdCode3Policy = .fault then [.outOfBounds, .malformedPrefix] else [.outOfBounds]
  | .readMC | .readUMC | .readMS => [.outOfBounds, .contLength]
  | .readTV => [.outOfBounds, .textCap]
  | .readH | .readH0 => [.outOfBounds, .handleCap]

theorem outOfBounds_mem_raises (k : Config) (i : Instr) : Cause.outOfBounds ∈ raises k i := by
  cases i <;> simp [raises]; split <;> simp

theorem illegalOp_not_mem_raises (k : Config) (i : Instr) : Cause.illegalOp ∉ raises k i := by
  cases i <;> simp [raises]; split <;> simp

/-- The fewest bits an instruction consumes when it commits (the last column of R102). -/
def leastBits : Instr → Nat
  | .readB => 1
  | .readBB => 2
  | .read3B => 3
  | .read4B => 4
  | .readRC => 8
  | .readRS => 16
  | .readRL => 32
  | .readRD => 64
  | .readBS | .readBL | .readBD | .readDD => 2
  | .readMC | .readUMC => 8
  | .readMS => 16
  | .readTV => 2
  | .readH | .readH0 => 8

/-- What the pseudocode of every instruction can do. -/
theorem pseudocode_within (s : State) (i : Instr) :
    Got.Within s s.cursor.toNat (leastBits i) (raises s.cfg i) (pseudocode s i) := by
  have ob : ∀ {k i}, Cause.outOfBounds ∈ raises k i := outOfBounds_mem_raises _ _
  cases i
  all_goals unfold pseudocode
  all_goals simp only [leastBits]
  case readB | readBB | read3B | read4B | readRC =>
    exact (readField_within ob (by omega)).bind fun _ _ _ => Got.within_ok _ (by omega) (by omega)
  case readRS | readRL | readRD =>
    exact (readBytes_within ob (by omega)).bind fun _ _ _ => Got.within_ok _ (by omega) (by omega)
  case readBS => exact (bitShortValue_within ob (by omega)).bind fun _ _ _ => Got.within_ok _ (by omega) (by omega)
  case readMC | readUMC =>
    exact (collectFrom_within ob (by simp [raises]) (by omega)).bind fun _ _ _ => Got.within_ok _ (by omega) (by omega)
  case readBL =>
    refine Got.Within.bind (Got.Within.bind (readField_within ob (by omega)) fun P c' hP => ?_) fun _ _ _ =>
      Got.within_ok _ (by omega) (by omega)
    have := readField_eq_ok.1 hP
    split
    · exact (readBytes_within ob (by omega)).bind fun _ _ _ => Got.within_ok _ (by omega) (by omega)
    · exact (readField_within ob (by omega)).bind fun _ _ _ => Got.within_ok _ (by omega) (by omega)
    · exact Got.within_ok _ (by omega) (by omega)
    · exact Got.within_raise (by simp [raises]) (by omega)
  case readBD =>
    refine Got.Within.bind (Got.Within.bind (readField_within ob (by omega)) fun P c' hP => ?_) fun _ _ _ =>
      Got.within_ok _ (by omega) (by omega)
    have := readField_eq_ok.1 hP
    split
    · exact (readBytes_within ob (by omega)).bind fun _ _ _ => Got.within_ok _ (by omega) (by omega)
    · exact Got.within_ok _ (by omega) (by omega)
    · exact Got.within_ok _ (by omega) (by omega)
    · split
      · rename_i hp; exact Got.within_raise (by simp [raises, hp]) (by omega)
      · exact Got.within_ok _ (by omega) (by omega)
  case readDD =>
    refine Got.Within.bind (Got.Within.bind (readField_within ob (by omega)) fun P c' hP => ?_) fun _ _ _ =>
      Got.within_ok _ (by omega) (by omega)
    split
    · exact Got.within_ok _ (by omega) (by omega)
    all_goals exact (readBytes_within ob (by omega)).bind fun _ _ _ => Got.within_ok _ (by omega) (by omega)
  case readMS =>
    refine Got.Within.bind (Got.Within.bind ((readBytes_within ob (by omega)).bind fun _ _ _ =>
      Got.within_ok _ (by omega) (by omega)) fun w0 c1 h1 => ?_) fun _ _ _ => Got.within_ok _ (by omega) (by omega)
    split
    · refine Got.Within.bind ((readBytes_within ob (by omega)).bind fun _ _ _ =>
        Got.within_ok _ (by omega) (by omega)) fun w1 c2 h2 => ?_
      split
      · obtain ⟨_, _, h3, h4⟩ := Got.bind_eq_ok.1 h2
        have := readBytes_eq_ok.1 h3
        exact Got.within_raise (by simp [raises]) (by omega)
      · exact Got.within_ok _ (by omega) (by omega)
    · exact Got.within_ok _ (by omega) (by omega)
  case readTV =>
    refine Got.Within.bind ((bitShortValue_within ob (by omega)).bind fun l c' hl => ?_) fun _ _ _ =>
      Got.within_ok _ (by omega) (by omega)
    have : s.cursor.toNat ≤ 8 * s.buflen.toNat := by
      obtain ⟨_, _, h3, h4⟩ := Got.bind_eq_ok.1 hl
      have := readField_eq_ok.1 h3; omega
    split
    · exact Got.within_raise (by simp [raises]) (by omega)
    · exact readBytes_within ob (by omega)
  case readH =>
    refine (readField_within ob (le_refl 4)).bind_add (b := 4) fun code c' h1 =>
      (readField_within ob (le_refl 4)).bind fun n c2 h2 =>
        (handlePayload_within ob (by simp [raises]) ?_).bind fun _ _ _ => Got.within_ok _ (by omega) (by omega)
    have := readField_eq_ok.1 h2; omega
  case readH0 =>
    refine (readField_within ob (by omega)).bind fun code c' h1 =>
      (handlePayload_within ob (by simp [raises]) ?_).bind fun _ _ _ => Got.within_ok _ (by omega) (by omega)
    have := readField_eq_ok.1 h1; omega

/-! ### What a command stages -/

/-- The shape of what an instruction's pseudocode stages (R140): RESULT alone, a text, or a code with a payload; a payload's
length fits PLEN. -/
inductive Staged.Shape : Instr → Staged → Prop where
  | scalar {i : Instr} (hi : i ∉ ([.readTV, .readH, .readH0] : List Instr)) (v : Word) : Staged.Shape i (.scalar v)
  | text (r : List Byte) (h : r.length < 65536) : Staged.Shape .readTV (.text r)
  | handle (code : BitVec 4) (r : List Byte) (h : r.length < 65536) : Staged.Shape .readH (.handle code r)
  | handle0 (r : List Byte) (h : r.length < 65536) : Staged.Shape .readH0 (.handle 0 r)

theorem readBytes_length {s : State} {c n c' : Nat} {r : List Byte} (h : readBytes s c n = .ok r c') : r.length = n :=
  (byteRun_eq.1 (readBytes_eq_ok.1 h).2.1).1

theorem handlePayload_length {s : State} {pos n c c' : Nat} {r : List Byte} (h : handlePayload s pos n c = .ok r c') :
    r.length = n := by
  unfold handlePayload at h
  split at h
  · cases h
  · exact readBytes_length h

/-- Every instruction that commits stages its own shape. -/
theorem pseudocode_staged {s : State} {i : Instr} {w : Staged} {c : Nat} (h : pseudocode s i = .ok w c) :
    Staged.Shape i w := by
  cases i <;> unfold pseudocode at h
  case readTV =>
    obtain ⟨r, c1, h1, h2⟩ := Got.bind_eq_ok.1 h
    cases h2
    obtain ⟨l, c2, -, h4⟩ := Got.bind_eq_ok.1 h1
    split at h4
    · cases h4
    · exact .text r (by rw [readBytes_length h4]; exact l.isLt)
  case readH =>
    obtain ⟨code, c1, -, h⟩ := Got.bind_eq_ok.1 h
    obtain ⟨n, c2, h1, h⟩ := Got.bind_eq_ok.1 h
    obtain ⟨r, c3, h2, h⟩ := Got.bind_eq_ok.1 h
    cases h
    have := field_lt (readField_eq_ok.1 h1).2.1
    exact .handle _ r (by rw [handlePayload_length h2]; omega)
  case readH0 =>
    obtain ⟨n, c2, h1, h⟩ := Got.bind_eq_ok.1 h
    obtain ⟨r, c3, h2, h⟩ := Got.bind_eq_ok.1 h
    cases h
    have := field_lt (readField_eq_ok.1 h1).2.1
    exact .handle0 r (by rw [handlePayload_length h2]; omega)
  all_goals
    obtain ⟨_, _, -, h⟩ := Got.bind_eq_ok.1 h
    cases h
    exact .scalar (by simp) _

/-! ### What the pseudocode depends on -/

/-- The two states hold the same inputs of a command: parameters, CURSOR, BUFLEN, DEFAULT, and the bytes below BUFLEN. -/
structure SameInputs (s s' : State) : Prop where
  cfg : s'.cfg = s.cfg
  cursor : s'.cursor = s.cursor
  buflen : s'.buflen = s.buflen
  dflt : s'.dflt = s.dflt
  bytes : ∀ a, a < s.buflen.toNat → Memory.read s'.buf a = Memory.read s.buf a

theorem SameInputs.readField {s s' : State} (h : SameInputs s s') (c n : Nat) : readField s' c n = readField s c n := by
  simp only [Machine.readField, h.buflen]
  split
  · rfl
  · rw [field_congr fun k hk => h.bytes _ (by omega)]

theorem SameInputs.readBytes {s s' : State} (h : SameInputs s s') (c n : Nat) : readBytes s' c n = readBytes s c n := by
  simp only [Machine.readBytes, h.buflen]
  split
  · rfl
  · split
    · rfl
    · rw [byteRun_congr fun k hk => h.bytes _ (by omega)]

theorem SameInputs.collectFrom {s s' : State} (h : SameInputs s s') (left n c : Nat) :
    collectFrom s' left n c = collectFrom s left n c := by
  induction left generalizing n c with
  | zero => simp only [Machine.collectFrom, h.readField]
  | succ left ih => simp only [Machine.collectFrom, h.readField, ih]

/-- Equal inputs, equal pseudocode. -/
theorem SameInputs.pseudocode {s s' : State} (h : SameInputs s s') (i : Instr) : pseudocode s' i = pseudocode s i := by
  cases i <;>
    simp only [Machine.pseudocode, h.cursor, h.cfg, h.dflt, h.readField, h.readBytes, bitShortValue, bitLongValue,
      bitDoubleValue, patchedDefault, readPrefix, collect, h.collectFrom, mShortValue, readShortWord, textPayload,
      handlePayload]

/-! ### Collect() by the bytes it meets (R180) -/

/-- Continued bytes, then a byte with bit 7 clear: all of them are collected. -/
theorem collectFrom_of_streamBytes (s : State) (r : List Byte) (t : Byte) (left n c : Nat)
    (h1 : ∀ b ∈ r, b.getLsbD 7 = true) (h2 : t.getLsbD 7 = false) (h3 : r.length ≤ left) (h : s.streamBytes c (r ++ [t])) :
    collectFrom s left n c = .ok (r ++ [t]) (c + 8 * (r.length + 1)) := by
  induction r generalizing left n c with
  | nil =>
    have := readField_of_streamField (State.streamBytes_one h)
    have h2' : t[7] = false := h2
    cases left <;> simp [collectFrom, this, continues, h2']
  | cons b r ih =>
    cases left with
    | zero => simp at h3
    | succ left =>
      have h' : s.streamBytes c ([b] ++ (r ++ [t])) := h
      rw [State.streamBytes_append] at h'
      have hin : s.inStream c 8 := by have := h.1; simp [State.inStream] at *; omega
      have := readField_of_streamField (State.streamBytes_one ⟨hin, h'.2⟩)
      simp only [collectFrom, this, Got.bind_ok, BitVec.ofNat_toNat, BitVec.setWidth_eq, continues, h1 b (by simp), if_true]
      rw [ih left (n + 1) (c + 8) (fun b hb => h1 b (by simp [hb])) (by simpa using h3) h'.1]
      simp; omega

/-- A collected run: at least one and at most `left + 1` bytes, all but the last continued. -/
theorem collectFrom_eq_ok {s : State} {left n c c' : Nat} {bs : List Byte} (h : collectFrom s left n c = .ok bs c') :
    1 ≤ bs.length ∧ bs.length ≤ left + 1 ∧ c' = c + 8 * bs.length := by
  induction left generalizing n c c' bs with
  | zero =>
    obtain ⟨v, c1, h1, h2⟩ := Got.bind_eq_ok.1 h
    obtain ⟨-, -, rfl⟩ := readField_eq_ok.1 h1
    split at h2
    · cases h2
    · cases h2; simp
  | succ left ih =>
    obtain ⟨v, c1, h1, h2⟩ := Got.bind_eq_ok.1 h
    obtain ⟨-, -, rfl⟩ := readField_eq_ok.1 h1
    split at h2
    · obtain ⟨r, c2, h3, h4⟩ := Got.bind_eq_ok.1 h2
      have := ih h3
      cases h4
      simp; omega
    · cases h2; simp

/-- The 7-bit groups of n bytes are below 2^(7n) (R185). -/
theorem groupSum_lt (r : List Byte) : groupSum r < 2 ^ (7 * r.length) := by
  induction r with
  | nil => simp [groupSum]
  | cons b bs ih =>
    have : (b &&& 0x7F).toNat ≤ 127 := by rw [BitVec.toNat_and]; exact Nat.and_le_right
    simp only [groupSum, List.length_cons, Nat.mul_add, pow_add]
    omega

/-- The magnitude of n bytes is below 2^(7n - 1) (R185). -/
theorem signedMagnitude_lt (r : List Byte) (h : r ≠ []) : 2 * signedMagnitude r < 2 ^ (7 * r.length) := by
  induction r using signedMagnitude.induct with
  | case1 => exact absurd rfl h
  | case2 t =>
    have : (t &&& 0x3F).toNat ≤ 63 := by rw [BitVec.toNat_and]; exact Nat.and_le_right
    simp only [signedMagnitude, List.length_singleton]; omega
  | case3 b bs hbs ih =>
    have h1 : (b &&& 0x7F).toNat ≤ 127 := by rw [BitVec.toNat_and]; exact Nat.and_le_right
    have h2 := ih (by rintro rfl; exact hbs rfl)
    rw [signedMagnitude]
    · obtain ⟨k, hk⟩ : ∃ k, bs.length = k + 1 := ⟨bs.length - 1, by cases bs <;> simp at *⟩
      simp only [List.length_cons, hk, Nat.mul_add, pow_add] at h2 ⊢
      omega
    · exact hbs

end Sys2Proof.Machine
end

