-- ==== Sys2Proof/Laws/PerInstr.lean ====
section
/-! SUPPORT. The statement made per instruction: an instruction's own word decodes to it. -/

namespace Sys2Proof.Laws.RoundTrip

/-- The word of an instruction has RSVD zero and the instruction's opcode in OPC (R101, R102). -/
def Statement (i : Instr) : Prop := rsvdField (encode i) = 0 ∧ decodeOpc (opcField (encode i)) = some i

theorem readB : Statement .readB := by unfold Statement; decide
theorem readBB : Statement .readBB := by unfold Statement; decide
theorem read3B : Statement .read3B := by unfold Statement; decide
theorem read4B : Statement .read4B := by unfold Statement; decide
theorem readRC : Statement .readRC := by unfold Statement; decide
theorem readRS : Statement .readRS := by unfold Statement; decide
theorem readRL : Statement .readRL := by unfold Statement; decide
theorem readRD : Statement .readRD := by unfold Statement; decide
theorem readBS : Statement .readBS := by unfold Statement; decide
theorem readBL : Statement .readBL := by unfold Statement; decide
theorem readBD : Statement .readBD := by unfold Statement; decide
theorem readDD : Statement .readDD := by unfold Statement; decide
theorem readMC : Statement .readMC := by unfold Statement; decide
theorem readUMC : Statement .readUMC := by unfold Statement; decide
theorem readMS : Statement .readMS := by unfold Statement; decide
theorem readTV : Statement .readTV := by unfold Statement; decide
theorem readH : Statement .readH := by unfold Statement; decide
theorem readH0 : Statement .readH0 := by unfold Statement; decide

end Sys2Proof.Laws.RoundTrip
end

