-- ==== Sys2Proof/Tests/Slice0.lean ====
section
/-! SUPPORT. The model's own tests: the checks refuse what they should, the words of R102 decode, single steps against the
vectors of spec/95_test_vectors.md section 2, and a witness for every hypothesis and clause of the statements. -/

open Sys2Proof Sys2Proof.Machine Sys2Proof.Claims

namespace Sys2Proof.Tests

/-! ### Helpers -/

/-- FIX of spec/95_test_vectors.md section 2. -/
def fix : List Byte := [0xA5, 0x3C, 0x0F, 0xF0, 0x81, 0x7E, 0x12, 0x34, 0x56, 0x78, 0x9A, 0xBC]

/-- Reset, then the bytes loaded, BUFLEN at `len` and CURSOR set, with chosen parameters. -/
def loadedWith (k : Config) (bs : List Byte) (len cursor : Nat) : State :=
  { State.resetOf k with
    buf := Memory.writeRun [] 0 bs, buflen := BitVec.ofNat 64 len, cursor := BitVec.ofNat 64 cursor }

/-- Reset, then the bytes loaded, BUFLEN at their count and CURSOR set. -/
def loaded (bs : List Byte) (cursor : Nat) : State := loadedWith Config.standard bs bs.length cursor

/-- The same with the command accepted (R221). -/
def pendingOn (i : Instr) (s : State) : State := { s with pending := encode i, busy := true }

/-- One step completes in a state that satisfies `p`. -/
def stepsTo (s : State) (p : State → Bool) : Bool :=
  match step s with
  | .next t => p t
  | .refused _ => false

/-- One step is refused for the reason `r`. -/
def stepRefused (s : State) (r : Refusal) : Bool :=
  match step s with
  | .next _ => false
  | .refused q => decide (q = r)

/-- One command commits with this RESULT and CURSOR. -/
def scalarGives (i : Instr) (s : State) (result cursor : Nat) : Bool :=
  stepsTo (pendingOn i s) fun t =>
    decide (t.result.toNat = result ∧ t.cursor.toNat = cursor ∧ t.busy = false ∧ t.fault = false)

/-- One command faults with this CAUSE, FAULT_CURSOR and DETAIL, and CURSOR stays. -/
def faultsWith (i : Instr) (s : State) (cause at_ detail : Nat) : Bool :=
  stepsTo (pendingOn i s) fun t =>
    decide (t.fault = true ∧ t.busy = false ∧ t.cause.toNat = cause ∧ t.faultCursor.toNat = at_ ∧
      t.faultDetail.toNat = detail ∧ t.faultOp = (encode i).setWidth 8 ∧ t.cursor = s.cursor)

/-- One command commits with this HCODE, PAYLOAD and CURSOR. -/
def payloadGives (i : Instr) (s : State) (code : Nat) (r : List Byte) (cursor : Nat) : Bool :=
  stepsTo (pendingOn i s) fun t =>
    decide (t.hcode.toNat = code ∧ t.plen.toNat = r.length ∧ t.payload = Memory.writeRun [] 0 r ∧
      t.cursor.toNat = cursor ∧ t.fault = false)

/-! ### Well-formedness (00_scope.md section 4) -/

theorem test_standard_config_wf : Config.standard.wf = true := by decide
theorem test_bufCap_zero_refused : Config.wf { Config.standard with bufCap := 0 } = false := by decide
theorem test_bufCap_above_refused : Config.wf { Config.standard with bufCap := 2 ^ 60 + 1 } = false := by decide
theorem test_payloadCap_below_handleMax_refused : Config.wf { Config.standard with payloadCap := 7 } = false := by decide
theorem test_payloadCap_above_refused : Config.wf { Config.standard with payloadCap := 65536 } = false := by decide
theorem test_handleMax_above_refused : Config.wf { Config.standard with handleMax := 256 } = false := by decide
theorem test_mcMaxBytes_below_refused : Config.wf { Config.standard with mcMaxBytes := 3 } = false := by decide
theorem test_mcMaxBytes_above_refused : Config.wf { Config.standard with mcMaxBytes := 9 } = false := by decide
theorem test_dd6Order_repeat_refused : Config.wf { Config.standard with dd6Order := [4, 5, 0, 1, 2, 2] } = false := by decide
theorem test_dd6Order_short_refused : Config.wf { Config.standard with dd6Order := [0, 1, 2, 3, 4] } = false := by decide
theorem test_every_instr_wf : (Instr.all.all Instr.wf) = true := by decide

/-! ### Decoding: every command's word written out from R101 and R102 -/

theorem test_decode_READ_B : decode 0x0000000000000001 = .ok .readB := by decide
theorem test_decode_READ_BB : decode 0x0000000000000002 = .ok .readBB := by decide
theorem test_decode_READ_3B : decode 0x0000000000000003 = .ok .read3B := by decide
theorem test_decode_READ_4B : decode 0x0000000000000004 = .ok .read4B := by decide
theorem test_decode_READ_RC : decode 0x0000000000000005 = .ok .readRC := by decide
theorem test_decode_READ_RS : decode 0x0000000000000006 = .ok .readRS := by decide
theorem test_decode_READ_RL : decode 0x0000000000000007 = .ok .readRL := by decide
theorem test_decode_READ_RD : decode 0x0000000000000008 = .ok .readRD := by decide
theorem test_decode_READ_BS : decode 0x0000000000000010 = .ok .readBS := by decide
theorem test_decode_READ_BL : decode 0x0000000000000011 = .ok .readBL := by decide
theorem test_decode_READ_BD : decode 0x0000000000000012 = .ok .readBD := by decide
theorem test_decode_READ_DD : decode 0x0000000000000013 = .ok .readDD := by decide
theorem test_decode_READ_MC : decode 0x0000000000000020 = .ok .readMC := by decide
theorem test_decode_READ_UMC : decode 0x0000000000000021 = .ok .readUMC := by decide
theorem test_decode_READ_MS : decode 0x0000000000000022 = .ok .readMS := by decide
theorem test_decode_READ_TV : decode 0x0000000000000030 = .ok .readTV := by decide
theorem test_decode_READ_H : decode 0x0000000000000031 = .ok .readH := by decide
theorem test_decode_READ_H0 : decode 0x0000000000000032 = .ok .readH0 := by decide
theorem test_decode_bit_by_bit : decode 0b10011#64 = .ok .readDD := by decide
theorem test_decode_reserved_bit_8 : decode 0x0000000000000101 = .error .reservedNotZero := by decide
theorem test_decode_reserved_bit_63 : decode 0x8000000000000001 = .error .reservedNotZero := by decide
theorem test_decode_unlisted : decode 0x0000000000000009 = .error .unlistedOpcode := by decide
theorem test_decodeTableWord : decodeTableWord 8 0x31 = some .readH ∧ decodeTableWord 64 0x31 = some .readH := by decide
theorem test_decodeTableWord_illegal : decodeTableWord 8 0xFF = none := by decide

/-! ### Fixed width (spec/95_test_vectors.md section 2.1) -/

theorem test_readB_last_bit : scalarGives .readB (loaded fix 95) 0 96 = true := by decide
theorem test_readB_end_of_buffer : faultsWith .readB (loaded fix 96) 1 96 0 = true := by decide
theorem test_readBB_straddles : scalarGives .readBB (loaded fix 7) 2 9 = true := by decide
theorem test_readBB_cut : faultsWith .readBB (loaded fix 95) 1 95 0 = true := by decide
theorem test_read3B_straddles : scalarGives .read3B (loaded fix 6) 2 9 = true := by decide
theorem test_read3B_end : scalarGives .read3B (loaded fix 93) 4 96 = true := by decide
theorem test_read4B_straddles : scalarGives .read4B (loaded fix 6) 4 10 = true := by decide
theorem test_read4B_first : scalarGives .read4B (loaded fix 0) 0xA 4 = true := by decide
theorem test_readRC_unaligned : scalarGives .readRC (loaded fix 4) 0x53 12 = true := by decide
theorem test_readRC_cut : faultsWith .readRC (loaded fix 89) 1 89 0 = true := by decide
theorem test_readRS_sign : scalarGives .readRS (loaded fix 3) 0xFFFFFFFFFFFFE029 19 = true := by decide
theorem test_readRS_order : scalarGives .readRS (loaded [0x80, 0x00] 0) 0x80 16 = true := by decide
theorem test_readRL_unaligned : scalarGives .readRL (loaded fix 5) 0x10FE81A7 37 = true := by decide
theorem test_readRL_sign : scalarGives .readRL (loaded [0x00, 0x00, 0x00, 0x80] 0) 0xFFFFFFFF80000000 32 = true := by decide
theorem test_readRD_unaligned : scalarGives .readRD (loaded fix 4) 0x4523E11708FFC053 68 = true := by decide
theorem test_readRD_cut : faultsWith .readRD (loadedWith Config.standard fix 7 0) 1 0 0 = true := by decide

/-! ### Prefix coded (section 2.2) -/

theorem test_readBS_unaligned : scalarGives .readBS (loaded [0x06, 0x82, 0x40] 1) 0x1234 19 = true := by decide
theorem test_readBS_code1_sign :
    scalarGives .readBS (loadedWith { Config.standard with code1Ext := .sign } [0x7F, 0xC0] 2 0) 0xFFFFFFFFFFFFFFFF 10 =
      true := by decide
theorem test_readBL_code0 : scalarGives .readBL (loaded [0x1E, 0x15, 0x8D, 0x04, 0x80] 0) 0x12345678 34 = true := by decide
theorem test_readBL_code3 : faultsWith .readBL (loaded [0xC0] 0) 2 0 3 = true := by decide
theorem test_readBD_code1 : scalarGives .readBD (loaded [0x40] 0) 0x3FF0000000000000 2 = true := by decide
theorem test_readBD_code3 : faultsWith .readBD (loaded [0xC0] 0) 2 0 3 = true := by decide
theorem test_readDD_code2 :
    scalarGives .readDD { loaded [0xAA, 0xAE, 0xC4, 0x48, 0x8C, 0xD1, 0x00] 0 with dflt := 0x3FF0000000000000 }
      0x3FF0BBAA44332211 50 = true := by decide
theorem test_readDD_code1 :
    scalarGives .readDD { loaded [0x44, 0x48, 0x8C, 0xD1, 0x00] 0 with dflt := 0x3FF0000000000000 }
      0x3FF0000044332211 34 = true := by decide

/-! ### Continuation encoded (section 2.3) -/

theorem test_readMC_negative : scalarGives .readMC (loaded [0x80, 0x41] 0) 0xFFFFFFFFFFFFFF80 16 = true := by decide
theorem test_readMC_eight_continued : faultsWith .readMC (loaded [0xFF, 0xFF, 0xFF, 0xFF, 0xFF, 0xFF, 0xFF, 0xFF] 0) 3 56 8 =
    true := by decide
theorem test_readUMC_bit6_is_data : scalarGives .readUMC (loaded [0x41] 0) 0x41 8 = true := by decide
theorem test_readUMC_three : scalarGives .readUMC (loaded [0xE5, 0x8E, 0x26] 0) 0x98765 24 = true := by decide
theorem test_readMS_two_words : scalarGives .readMS (loaded [0x34, 0x92, 0x01, 0x00] 0) 0x9234 32 = true := by decide
theorem test_readMS_second_continuation : faultsWith .readMS (loaded [0x00, 0x80, 0x00, 0x80] 0) 3 16 4 = true := by decide

/-! ### Text and handles (section 2.4) -/

theorem test_readTV_two : payloadGives .readTV (loaded [0x00, 0x80, 0x1A, 0x1A, 0x40] 0) 0 [0x68, 0x69] 34 = true := by decide
theorem test_readTV_cap_before_bounds :
    faultsWith .readTV (loadedWith { Config.standard with payloadCap := 100 } [0x3F, 0xFF, 0xC0] 3 0) 5 0 65535 =
      true := by decide
theorem test_readH_unaligned : payloadGives .readH (loaded [0x05, 0x11, 0xA0] 4) 5 [0x1A] 20 = true := by decide
theorem test_readH_cap : faultsWith .readH (loaded [0x49] 0) 4 4 9 = true := by decide
theorem test_readH0_one : payloadGives .readH0 (loaded [0x01, 0x7F] 0) 0 [0x7F] 16 = true := by decide
theorem test_readH0_payload_cut : faultsWith .readH0 (loaded [0x02, 0x11] 0) 1 8 0 = true := by decide

/-! ### Steps of the engine, the host and the reset input -/

theorem test_illegal_word_reports_op_1 :
    stepsTo { loaded fix 3 with pending := 0x101, busy := true } (fun t =>
      decide (statusWord t = 0x62 ∧ t.faultCursor = 3 ∧ faultInfoWord t = 1)) = true := by decide
theorem test_fetch_word_runs_first :
    stepsTo (State.reset.withFetchWord 8 0x05) (fun t =>
      decide (t.cause = 1 ∧ t.faultOp = 0x05 ∧ t.faultCursor = 0)) = true := by decide
theorem test_unwritten_byte_refused :
    stepRefused (pendingOn .readRC (loadedWith Config.standard [] 1 0)) (.unwrittenBuf 0) = true := by decide
theorem test_reset_abandons_command :
    stepsTo { pendingOn .readRC (loaded fix 4) with turns := [.reset], drop := true } (fun t =>
      decide (t = { State.reset with pending := t.pending })) = true := by decide
theorem test_reset_memory_canonical :
    Memory.wf State.reset.buf = true ∧ Memory.wf State.reset.payload = true := by decide
theorem test_write_keeps_rising :
    Memory.write [(1, 0x11), (5, 0x55)] 3 0x33 = [(1, 0x11), (3, 0x33), (5, 0x55)] := by decide
theorem test_buflen_above_cap_dropped :
    stepsTo { State.reset with host := { HostAgent.idle with prog := [.wr 0x18 65] } } (fun t =>
      decide (t.drop = true ∧ t.buflen = 0 ∧ t.host.pos = 1)) = true := by decide
theorem test_jbusy_goes_back :
    stepsTo { State.reset with host :=
      { prog := [.label (.poll 0), .rd 0x08, .jbusy (.poll 0)], pos := 2, lastStatus := some 1, listing := [] } } (fun t =>
        decide (t.host.pos = 0)) = true := by decide
theorem test_jump_without_label_refused :
    stepRefused { State.reset with host := { HostAgent.idle with prog := [.jmp (.user 7)] } } (.noSuchLabel (.user 7)) =
      true := by decide
theorem test_expand_do :
    expandProgram [.run .readB, .poll] =
      [.wr 0 1, .label (.poll 0), .rd 8, .jbusy (.poll 0), .label (.poll 1), .rd 8, .jbusy (.poll 1)] := by decide

/-! ### Witnesses: the hypotheses of every statement, clause by clause, at the edges of their ranges -/

theorem inStream_of {s : State} {p n : Nat} (h : decide (p + n ≤ 8 * s.buflen.toNat) = true) : s.inStream p n :=
  show p + n ≤ 8 * s.buflen.toNat from of_decide_eq_true h

theorem not_inStream_of {s : State} {p n : Nat} (h : decide (¬p + n ≤ 8 * s.buflen.toNat) = true) : ¬s.inStream p n :=
  show ¬p + n ≤ 8 * s.buflen.toNat from of_decide_eq_true h

theorem streamField_of {s : State} {p n v : Nat}
    (h : decide (p + n ≤ 8 * s.buflen.toNat ∧ field s.buf p n = some v) = true) : s.streamField p n v :=
  show p + n ≤ 8 * s.buflen.toNat ∧ field s.buf p n = some v from of_decide_eq_true h

theorem holdsBytes_of {s : State} {p : Nat} {r : List Byte} (h : decide (byteRun s.buf p r.length = some r) = true) :
    s.holdsBytes p r := (byteRun_eq.1 (of_decide_eq_true h)).2

theorem streamBytes_of {s : State} {p : Nat} {r : List Byte}
    (h : decide (p + 8 * r.length ≤ 8 * s.buflen.toNat ∧ byteRun s.buf p r.length = some r) = true) :
    s.streamBytes p r := ⟨(of_decide_eq_true h).1, (byteRun_eq.1 (of_decide_eq_true h).2).2⟩

/-- The invariant of a state given by its data, each check decided. -/
theorem inv_of {s : State} (h : (s.cfg.wf && decide (s.buflen.toNat ≤ s.cfg.bufCap) && decide (s.plen.toNat ≤ s.cfg.payloadCap) &&
    !(s.busy && s.fault) && decide (s.cause = 0 ↔ s.fault = false) && decide (s.cause.toNat ≤ 6) && Memory.wf s.buf &&
    Memory.wf s.payload && (s.buf.all fun c => decide (c.1 < s.cfg.bufCap)) &&
    (s.payload.all fun c => decide (c.1 < s.cfg.payloadCap)) &&
    decide (∀ i, i < s.plen.toNat → (Memory.read s.payload i).isSome = true)) = true) : s.Inv := by
  simp only [Bool.and_eq_true, decide_eq_true_eq, Bool.not_eq_true'] at h
  obtain ⟨⟨⟨⟨⟨⟨⟨⟨⟨⟨h1, h2⟩, h3⟩, h4⟩, h5⟩, h6⟩, h7⟩, h8⟩, h9⟩, h10⟩, h11⟩ := h
  exact ⟨h1, h2, h3, h4, h5, h6, h7, h8, fun _ => Memory.read_eq_none_above h9, fun _ => Memory.read_eq_none_above h10, h11⟩

/-- The host about to run one statement. -/
def hostAt (s : State) (h : HostStmt) : State := { s with host := { HostAgent.idle with prog := [h] } }

/-- A machine whose last command has faulted. -/
def faulted : State := { loaded fix 0 with fault := true, cause := 2, faultOp := 0x11, faultDetail := 3 }

theorem test_witness_DecodeEncodeAgree : Instr.readH0.wf = true ∧ decode 0x32 = .ok .readH0 := by decide

theorem test_witness_BitPositionIsMsbFirst :
    Memory.read (loaded fix 0).buf (95 / 8) = some 0xBC ∧ Memory.read (loaded fix 0).buf (96 / 8) = none := by decide

theorem test_witness_FieldIsMsbFirst_bits :
    1 ≤ 1 ∧ ∀ k, k < 1 → streamBit (loaded fix 0).buf (95 + k) = some ((fun _ => 0) k) := by decide
theorem test_witness_FieldIsMsbFirst_two_bytes :
    1 ≤ 9 ∧ 7 % 8 + 9 ≤ 16 ∧ Memory.read (loaded fix 0).buf (7 / 8) = some 0xA5 ∧
      Memory.read (loaded fix 0).buf (7 / 8 + 1) = some 0x3C := by decide
theorem test_witness_FieldIsMsbFirst_last_byte :
    1 ≤ 8 ∧ 88 % 8 + 8 ≤ 16 ∧ Memory.read (loaded fix 0).buf (88 / 8) = some 0xBC ∧ ¬8 < 88 % 8 + 8 := by decide

theorem test_witness_FieldIsMsbFirst_whole_byte :
    (Memory.read (loaded fix 0).buf (87 / 8) = some 0x9A ∧ 87 % 8 ≠ 0 ∧
      Memory.read (loaded fix 0).buf (87 / 8 + 1) = some 0xBC) ∧
    Memory.read (loaded fix 0).buf (88 / 8) = some 0xBC ∧ ¬88 % 8 ≠ 0 := by decide

theorem test_witness_FieldReaders_readB :
    (loaded fix 95).streamField (loaded fix 95).cursor.toNat 1 0 ∧ ¬(loaded fix 96).inStream (loaded fix 96).cursor.toNat 1 :=
  ⟨streamField_of (by decide), not_inStream_of (by decide)⟩
theorem test_witness_FieldReaders_readBB :
    (loaded fix 94).streamField (loaded fix 94).cursor.toNat 2 0 ∧ ¬(loaded fix 95).inStream (loaded fix 95).cursor.toNat 2 :=
  ⟨streamField_of (by decide), not_inStream_of (by decide)⟩
theorem test_witness_FieldReaders_read3B :
    (loaded fix 93).streamField (loaded fix 93).cursor.toNat 3 4 ∧ ¬(loaded fix 94).inStream (loaded fix 94).cursor.toNat 3 :=
  ⟨streamField_of (by decide), not_inStream_of (by decide)⟩
theorem test_witness_FieldReaders_read4B :
    (loaded fix 92).streamField (loaded fix 92).cursor.toNat 4 12 ∧ ¬(loaded fix 93).inStream (loaded fix 93).cursor.toNat 4 :=
  ⟨streamField_of (by decide), not_inStream_of (by decide)⟩
theorem test_witness_FieldReaders_readRC :
    (loaded fix 88).streamField (loaded fix 88).cursor.toNat 8 0xBC ∧
      ¬(loaded fix 89).inStream (loaded fix 89).cursor.toNat 8 :=
  ⟨streamField_of (by decide), not_inStream_of (by decide)⟩

theorem test_witness_RawReaders_short :
    (loaded fix 80).streamBytes (loaded fix 80).cursor.toNat [0x9A, 0xBC] ∧
      ¬(loaded fix 81).inStream (loaded fix 81).cursor.toNat 16 :=
  ⟨streamBytes_of (by decide), not_inStream_of (by decide)⟩
theorem test_witness_RawReaders_long :
    (loaded fix 64).streamBytes (loaded fix 64).cursor.toNat [0x56, 0x78, 0x9A, 0xBC] ∧
      ¬(loaded fix 65).inStream (loaded fix 65).cursor.toNat 32 :=
  ⟨streamBytes_of (by decide), not_inStream_of (by decide)⟩
theorem test_witness_RawReaders_double :
    (loaded fix 32).streamBytes (loaded fix 32).cursor.toNat [0x81, 0x7E, 0x12, 0x34, 0x56, 0x78, 0x9A, 0xBC] ∧
      ¬(loaded fix 33).inStream (loaded fix 33).cursor.toNat 64 :=
  ⟨streamBytes_of (by decide), not_inStream_of (by decide)⟩

theorem test_witness_FixedWidthRoundTrip_field :
    (loaded fix 6).inStream (loaded fix 6).cursor.toNat 3 ∧
      ∀ k, k < 3 → streamBit (loaded fix 6).buf ((loaded fix 6).cursor.toNat + k) = some ((2 : BitVec 3).getLsbD (3 - 1 - k)).toNat :=
  ⟨inStream_of (by decide), by decide⟩
theorem test_witness_FixedWidthRoundTrip_short :
    (loaded fix 3).inStream (loaded fix 3).cursor.toNat 16 ∧
      ∀ k j, k < 2 → j < 8 → streamBit (loaded fix 3).buf ((loaded fix 3).cursor.toNat + 8 * k + j) =
        some ((0xE029 : BitVec 16).getLsbD (8 * k + (7 - j))).toNat :=
  ⟨inStream_of (by decide), fun k j hk hj => by interval_cases k <;> interval_cases j <;> decide⟩
theorem test_witness_FixedWidthRoundTrip_long :
    (loaded fix 64).inStream (loaded fix 64).cursor.toNat 32 ∧
      ∀ k j, k < 4 → j < 8 → streamBit (loaded fix 64).buf ((loaded fix 64).cursor.toNat + 8 * k + j) =
        some ((0xBC9A7856 : BitVec 32).getLsbD (8 * k + (7 - j))).toNat :=
  ⟨inStream_of (by decide), fun k j hk hj => by interval_cases k <;> interval_cases j <;> decide⟩
theorem test_witness_FixedWidthRoundTrip_double :
    (loaded fix 32).inStream (loaded fix 32).cursor.toNat 64 ∧
      ∀ k j, k < 8 → j < 8 → streamBit (loaded fix 32).buf ((loaded fix 32).cursor.toNat + 8 * k + j) =
        some ((0xBC9A785634127E81 : BitVec 64).getLsbD (8 * k + (7 - j))).toNat :=
  ⟨inStream_of (by decide), fun k j hk hj => by interval_cases k <;> interval_cases j <;> decide⟩

/-- READ_BS, READ_BL, READ_BD and READ_DD without room for the prefix: one bit left. -/
theorem test_witness_prefix_cut : ¬(loaded [0x40] 7).inStream (loaded [0x40] 7).cursor.toNat 2 := not_inStream_of (by decide)
/-- Codes 2 and 3, the prefix in the stream's last two bits. -/
theorem test_witness_prefix_codes_2_3 :
    (loaded [0x02] 6).streamField (loaded [0x02] 6).cursor.toNat 2 2 ∧
      (loaded [0x03] 6).streamField (loaded [0x03] 6).cursor.toNat 2 3 :=
  ⟨streamField_of (by decide), streamField_of (by decide)⟩
/-- Code 1 of READ_BS and READ_BL: body at the stream's end, and one bit short. -/
theorem test_witness_prefix_code_1_body :
    (loaded [0x01, 0x82] 6).streamField (loaded [0x01, 0x82] 6).cursor.toNat 2 1 ∧
      (loaded [0x01, 0x82] 6).streamBytes ((loaded [0x01, 0x82] 6).cursor.toNat + 2) [0x82] :=
  ⟨streamField_of (by decide), streamBytes_of (by decide)⟩
theorem test_witness_prefix_code_1_cut :
    (loaded [0x00, 0x82] 7).streamField (loaded [0x00, 0x82] 7).cursor.toNat 2 1 ∧
      ¬(loaded [0x00, 0x82] 7).inStream ((loaded [0x00, 0x82] 7).cursor.toNat + 2) 8 :=
  ⟨streamField_of (by decide), not_inStream_of (by decide)⟩
/-- Code 0 of READ_BS: two body bytes at the stream's end, and one bit short. -/
theorem test_witness_BitShort_code_0 :
    (loaded [0x00, 0x34, 0x12] 6).streamField (loaded [0x00, 0x34, 0x12] 6).cursor.toNat 2 0 ∧
      (loaded [0x00, 0x34, 0x12] 6).streamBytes ((loaded [0x00, 0x34, 0x12] 6).cursor.toNat + 2) [0x34, 0x12] :=
  ⟨streamField_of (by decide), streamBytes_of (by decide)⟩
theorem test_witness_BitShort_code_0_cut :
    (loaded [0x00, 0x34, 0x12] 7).streamField (loaded [0x00, 0x34, 0x12] 7).cursor.toNat 2 0 ∧
      ¬(loaded [0x00, 0x34, 0x12] 7).inStream ((loaded [0x00, 0x34, 0x12] 7).cursor.toNat + 2) 16 :=
  ⟨streamField_of (by decide), not_inStream_of (by decide)⟩
/-- Code 0 of READ_BL and code 1 of READ_DD: four body bytes at the stream's end, and one bit short. -/
theorem test_witness_BitLong_code_0 :
    (loaded [0x00, 0x11, 0x22, 0x33, 0x44] 6).streamField (loaded [0x00, 0x11, 0x22, 0x33, 0x44] 6).cursor.toNat 2 0 ∧
      (loaded [0x00, 0x11, 0x22, 0x33, 0x44] 6).streamBytes
        ((loaded [0x00, 0x11, 0x22, 0x33, 0x44] 6).cursor.toNat + 2) [0x11, 0x22, 0x33, 0x44] :=
  ⟨streamField_of (by decide), streamBytes_of (by decide)⟩
theorem test_witness_BitLong_code_0_cut :
    (loaded [0x00, 0x11, 0x22, 0x33, 0x44] 7).streamField (loaded [0x00, 0x11, 0x22, 0x33, 0x44] 7).cursor.toNat 2 0 ∧
      ¬(loaded [0x00, 0x11, 0x22, 0x33, 0x44] 7).inStream
        ((loaded [0x00, 0x11, 0x22, 0x33, 0x44] 7).cursor.toNat + 2) 32 :=
  ⟨streamField_of (by decide), not_inStream_of (by decide)⟩
/-- Code 0 of READ_BD: eight body bytes at the stream's end, and one bit short. -/
theorem test_witness_BitDouble_code_0 :
    (loaded [0x00, 1, 2, 3, 4, 5, 6, 7, 8] 6).streamField (loaded [0x00, 1, 2, 3, 4, 5, 6, 7, 8] 6).cursor.toNat 2 0 ∧
      (loaded [0x00, 1, 2, 3, 4, 5, 6, 7, 8] 6).streamBytes
        ((loaded [0x00, 1, 2, 3, 4, 5, 6, 7, 8] 6).cursor.toNat + 2) [1, 2, 3, 4, 5, 6, 7, 8] :=
  ⟨streamField_of (by decide), streamBytes_of (by decide)⟩
theorem test_witness_BitDouble_code_0_cut :
    (loaded [0x00, 1, 2, 3, 4, 5, 6, 7, 8] 7).streamField (loaded [0x00, 1, 2, 3, 4, 5, 6, 7, 8] 7).cursor.toNat 2 0 ∧
      ¬(loaded [0x00, 1, 2, 3, 4, 5, 6, 7, 8] 7).inStream
        ((loaded [0x00, 1, 2, 3, 4, 5, 6, 7, 8] 7).cursor.toNat + 2) 64 :=
  ⟨streamField_of (by decide), not_inStream_of (by decide)⟩
/-- Codes 1, and 3 under both policies, of READ_BD. -/
theorem test_witness_BitDouble_codes_1_3 :
    (loaded [0x01] 6).streamField (loaded [0x01] 6).cursor.toNat 2 1 ∧
    (loaded [0x03] 6).streamField (loaded [0x03] 6).cursor.toNat 2 3 ∧ (loaded [0x03] 6).cfg.bdCode3Policy = .fault ∧
    (loadedWith { Config.standard with bdCode3Policy := .zero } [0x03] 1 6).streamField 6 2 3 ∧
      (loadedWith { Config.standard with bdCode3Policy := .zero } [0x03] 1 6).cfg.bdCode3Policy = .zero :=
  ⟨streamField_of (by decide), streamField_of (by decide), rfl, streamField_of (by decide), rfl⟩

/-- READ_DD: codes 0 and 1. -/
theorem test_witness_DefaultPatchedDouble_codes_0_1 :
    (loaded [0x00] 6).cfg.wf = true ∧ (loaded [0x00] 6).streamField (loaded [0x00] 6).cursor.toNat 2 0 ∧
    (loaded [0x01, 1, 2, 3, 4] 6).streamField (loaded [0x01, 1, 2, 3, 4] 6).cursor.toNat 2 1 ∧
      (loaded [0x01, 1, 2, 3, 4] 6).streamBytes ((loaded [0x01, 1, 2, 3, 4] 6).cursor.toNat + 2) [1, 2, 3, 4] ∧
    (loaded [0x00, 0x82, 3, 4, 5] 7).streamField (loaded [0x00, 0x82, 3, 4, 5] 7).cursor.toNat 2 1 ∧
      ¬(loaded [0x00, 0x82, 3, 4, 5] 7).inStream ((loaded [0x00, 0x82, 3, 4, 5] 7).cursor.toNat + 2) 32 :=
  ⟨by decide, streamField_of (by decide), streamField_of (by decide), streamBytes_of (by decide), streamField_of (by decide),
    not_inStream_of (by decide)⟩
/-- READ_DD: code 2, with an entry of DD6_ORDER at its first and last index. -/
theorem test_witness_DefaultPatchedDouble_code_2 :
    (loaded [0x02, 1, 2, 3, 4, 5, 6] 6).streamField (loaded [0x02, 1, 2, 3, 4, 5, 6] 6).cursor.toNat 2 2 ∧
      (loaded [0x02, 1, 2, 3, 4, 5, 6] 6).streamBytes
        ((loaded [0x02, 1, 2, 3, 4, 5, 6] 6).cursor.toNat + 2) [1, 2, 3, 4, 5, 6] ∧
      Config.standard.dd6Order[0]? = some 4 ∧ Config.standard.dd6Order[5]? = some 3 ∧
    (loaded [0x01, 2, 3, 4, 5, 6, 7] 7).streamField (loaded [0x01, 2, 3, 4, 5, 6, 7] 7).cursor.toNat 2 2 ∧
      ¬(loaded [0x01, 2, 3, 4, 5, 6, 7] 7).inStream ((loaded [0x01, 2, 3, 4, 5, 6, 7] 7).cursor.toNat + 2) 48 :=
  ⟨streamField_of (by decide), streamBytes_of (by decide), rfl, rfl, streamField_of (by decide), not_inStream_of (by decide)⟩
/-- READ_DD: code 3. -/
theorem test_witness_DefaultPatchedDouble_code_3 :
    (loaded [0x03, 1, 2, 3, 4, 5, 6, 7, 8] 6).streamField (loaded [0x03, 1, 2, 3, 4, 5, 6, 7, 8] 6).cursor.toNat 2 3 ∧
      (loaded [0x03, 1, 2, 3, 4, 5, 6, 7, 8] 6).streamBytes
        ((loaded [0x03, 1, 2, 3, 4, 5, 6, 7, 8] 6).cursor.toNat + 2) [1, 2, 3, 4, 5, 6, 7, 8] ∧
    (loaded [0x01, 0x82, 3, 4, 5, 6, 7, 8, 9] 7).streamField (loaded [0x01, 0x82, 3, 4, 5, 6, 7, 8, 9] 7).cursor.toNat 2 3 ∧
      ¬(loaded [0x01, 0x82, 3, 4, 5, 6, 7, 8, 9] 7).inStream
        ((loaded [0x01, 0x82, 3, 4, 5, 6, 7, 8, 9] 7).cursor.toNat + 2) 64 :=
  ⟨streamField_of (by decide), streamBytes_of (by decide), streamField_of (by decide), not_inStream_of (by decide)⟩

/-- READ_MC and READ_UMC: one byte, and the longest run of MC_MAX_BYTES bytes. -/
theorem test_witness_MChar_values :
    (loaded [0x41] 0).cfg.wf = true ∧ (loaded [0x41] 0).streamBytes (loaded [0x41] 0).cursor.toNat ([] ++ [0x41]) ∧
    (∀ b ∈ ([0xFF, 0xFF, 0xFF, 0xFF, 0xFF, 0xFF, 0xFF] : List Byte), b.getLsbD 7 = true) ∧
      (0x7F : Byte).getLsbD 7 = false ∧ 7 < Config.standard.mcMaxBytes ∧
      (loaded [0xFF, 0xFF, 0xFF, 0xFF, 0xFF, 0xFF, 0xFF, 0x7F] 0).streamBytes 0
        ([0xFF, 0xFF, 0xFF, 0xFF, 0xFF, 0xFF, 0xFF] ++ [0x7F]) :=
  ⟨by decide, streamBytes_of (by decide), by decide, by decide, by decide, streamBytes_of (by decide)⟩
/-- Collect() cut off: before the first byte, and after seven continued bytes. -/
theorem test_witness_MChar_cut :
    ((loaded [0xFF] 1).holdsBytes (loaded [0xFF] 1).cursor.toNat [] ∧
      ¬(loaded [0xFF] 1).inStream ((loaded [0xFF] 1).cursor.toNat + 8 * 0) 8) ∧
    ((loaded (List.replicate 7 0xFF) 0).holdsBytes 0 (List.replicate 7 0xFF) ∧
      (loaded (List.replicate 7 0xFF) 0).inStream 0 (8 * 7) ∧ 7 < Config.standard.mcMaxBytes ∧
      ¬(loaded (List.replicate 7 0xFF) 0).inStream (0 + 8 * 7) 8) :=
  ⟨⟨holdsBytes_of (by decide), not_inStream_of (by decide)⟩, holdsBytes_of (by decide), inStream_of (by decide), by decide,
    not_inStream_of (by decide)⟩
/-- Collect() with byte number MC_MAX_BYTES still continued. -/
theorem test_witness_MChar_too_long :
    (∀ b ∈ (List.replicate 8 0xFF : List Byte), b.getLsbD 7 = true) ∧
      (loaded (List.replicate 8 0xFF) 0).holdsBytes 0 (List.replicate 8 0xFF) ∧
      (loaded (List.replicate 8 0xFF) 0).inStream 0 (8 * 8) ∧ (List.replicate 8 (0xFF : Byte)).length = Config.standard.mcMaxBytes :=
  ⟨by decide, holdsBytes_of (by decide), inStream_of (by decide), by decide⟩

theorem test_witness_MShort_one_word :
    (loaded [0xFF, 0x7F] 0).streamBytes (loaded [0xFF, 0x7F] 0).cursor.toNat [0xFF, 0x7F] ∧ (0x7F : Byte).getLsbD 7 = false ∧
      ¬(loaded [0xFF, 0x7F] 1).inStream (loaded [0xFF, 0x7F] 1).cursor.toNat 16 :=
  ⟨streamBytes_of (by decide), by decide, not_inStream_of (by decide)⟩
theorem test_witness_MShort_two_words :
    (loaded [0x00, 0x80, 0x01, 0x00] 0).streamBytes (loaded [0x00, 0x80, 0x01, 0x00] 0).cursor.toNat [0x00, 0x80] ∧
      (0x80 : Byte).getLsbD 7 = true ∧
      (loaded [0x00, 0x80, 0x01, 0x00] 0).streamBytes ((loaded [0x00, 0x80, 0x01, 0x00] 0).cursor.toNat + 16) [0x01, 0x00] ∧
      (0x00 : Byte).getLsbD 7 = false :=
  ⟨streamBytes_of (by decide), by decide, streamBytes_of (by decide), by decide⟩
theorem test_witness_MShort_faults :
    (loaded [0x00, 0x80, 0x00, 0x80] 0).streamBytes 0 [0x00, 0x80] ∧
      (loaded [0x00, 0x80, 0x00, 0x80] 0).streamBytes (0 + 16) [0x00, 0x80] ∧
    (loaded [0x00, 0x80, 0x00] 0).streamBytes 0 [0x00, 0x80] ∧ ¬(loaded [0x00, 0x80, 0x00] 0).inStream (0 + 16) 16 :=
  ⟨streamBytes_of (by decide), streamBytes_of (by decide), streamBytes_of (by decide), not_inStream_of (by decide)⟩

/-- The largest magnitude, the largest sum, the largest M-short, and both M-chars at MC_MAX_BYTES = 4. -/
theorem test_witness_ContinuationResultsInRange :
    (∃ t, exec .readMC (loaded [0xFF, 0xFF, 0xFF, 0xFF, 0xFF, 0xFF, 0xFF, 0x7F] 0) = .next t ∧ t.fault = false) ∧
    (∃ t, exec .readUMC (loaded [0xFF, 0xFF, 0xFF, 0xFF, 0xFF, 0xFF, 0xFF, 0x7F] 0) = .next t ∧ t.fault = false) ∧
    (∃ t, exec .readMS (loaded [0xFF, 0xFF, 0xFF, 0x7F] 0) = .next t ∧ t.fault = false) ∧
    (∃ t, exec .readMC (loadedWith { Config.standard with mcMaxBytes := 4 } [0xFF, 0xFF, 0xFF, 0x7F] 4 0) = .next t ∧
      t.fault = false) ∧
    (∃ t, exec .readUMC (loadedWith { Config.standard with mcMaxBytes := 4 } [0xFF, 0xFF, 0xFF, 0x7F] 4 0) = .next t ∧
      t.fault = false) ∧
    Config.wf { Config.standard with mcMaxBytes := 4 } = true :=
  ⟨⟨_, rfl, rfl⟩, ⟨_, rfl, rfl⟩, ⟨_, rfl, rfl⟩, ⟨_, rfl, rfl⟩, ⟨_, rfl, rfl⟩, by decide⟩

/-- READ_TV: the length cut off, in the prefix and in both bodies. -/
theorem test_witness_TextReader_cut :
    bitShortCut (loaded [0x40] 7) (loaded [0x40] 7).cursor.toNat 7 ∧
    bitShortCut (loaded [0x00, 0x34, 0x12] 7) (loaded [0x00, 0x34, 0x12] 7).cursor.toNat 9 ∧
    bitShortCut (loaded [0x00, 0x82] 7) (loaded [0x00, 0x82] 7).cursor.toNat 9 :=
  ⟨.inl ⟨not_inStream_of (by decide), rfl⟩, .inr (.inl ⟨streamField_of (by decide), not_inStream_of (by decide), rfl⟩),
    .inr (.inr ⟨streamField_of (by decide), not_inStream_of (by decide), rfl⟩)⟩
/-- READ_TV: the four forms of the length. -/
theorem test_witness_TextReader_lengths :
    bitShortAt (loaded [0x00, 0x02, 0x00, 0x68, 0x69] 6) 6 2 18 ∧ bitShortAt (loaded [0x01, 0x01, 0x68] 6) 6 1 10 ∧
      bitShortAt (loaded [0x02] 6) 6 0 2 ∧ bitShortAt (loaded [0x03] 6) 6 256 2 :=
  ⟨.inl ⟨0x02, 0x00, streamField_of (by decide), streamBytes_of (by decide), by decide, rfl⟩,
    .inr (.inl ⟨0x01, streamField_of (by decide), streamBytes_of (by decide), by decide, rfl⟩),
    .inr (.inr (.inl ⟨streamField_of (by decide), rfl, rfl⟩)), .inr (.inr (.inr ⟨streamField_of (by decide), rfl, rfl⟩))⟩
/-- READ_TV: one above the cap, at the cap with the last character cut off, and the empty text at the stream's end. -/
theorem test_witness_TextReader_caps :
    (bitShortAt (loadedWith { Config.standard with payloadCap := 8 } [0x01, 0x09] 2 6) 6 9 10 ∧ 8 < 9) ∧
    (bitShortAt (loadedWith { Config.standard with payloadCap := 8 } [0x01, 0x08, 1, 2, 3, 4, 5, 6, 7] 9 6) 6 8 10 ∧
      ¬(loadedWith { Config.standard with payloadCap := 8 } [0x01, 0x08, 1, 2, 3, 4, 5, 6, 7] 9 6).inStream (6 + 10) (8 * 8)) ∧
    (bitShortAt (loadedWith { Config.standard with payloadCap := 8 } [0x01, 0x08, 1, 2, 3, 4, 5, 6, 7, 8] 10 6) 6 8 10 ∧
      (loadedWith { Config.standard with payloadCap := 8 } [0x01, 0x08, 1, 2, 3, 4, 5, 6, 7, 8] 10 6).streamBytes (6 + 10)
        [1, 2, 3, 4, 5, 6, 7, 8]) ∧
    (loaded [0x02] 6).streamBytes (6 + 2) [] :=
  ⟨⟨.inr (.inl ⟨0x09, streamField_of (by decide), streamBytes_of (by decide), by decide, rfl⟩), by decide⟩,
    ⟨.inr (.inl ⟨0x08, streamField_of (by decide), streamBytes_of (by decide), by decide, rfl⟩), not_inStream_of (by decide)⟩,
    ⟨.inr (.inl ⟨0x08, streamField_of (by decide), streamBytes_of (by decide), by decide, rfl⟩), streamBytes_of (by decide)⟩,
    streamBytes_of (by decide)⟩

/-- READ_H: code and counter cut off, counter one above HANDLE_MAX, payload at HANDLE_MAX and one bit short, and empty. -/
theorem test_witness_HandleReader :
    ¬(loaded [0x50] 5).inStream (loaded [0x50] 5).cursor.toNat 4 ∧
    ((loaded [0x50] 1).streamField 1 4 10 ∧ ¬(loaded [0x50] 1).inStream (1 + 4) 4) ∧
    ((loaded [0x49] 0).streamField 0 4 4 ∧ (loaded [0x49] 0).streamField (0 + 4) 4 9 ∧ Config.standard.handleMax < 9) ∧
    ((loaded [0x18, 1, 2, 3, 4, 5, 6, 7] 0).streamField 0 4 1 ∧ (loaded [0x18, 1, 2, 3, 4, 5, 6, 7] 0).streamField (0 + 4) 4 8 ∧
      8 ≤ Config.standard.handleMax ∧ ¬(loaded [0x18, 1, 2, 3, 4, 5, 6, 7] 0).inStream (0 + 8) (8 * 8)) ∧
    ((loaded [0x18, 1, 2, 3, 4, 5, 6, 7, 8] 0).streamField (0 + 4) 4 8 ∧
      (loaded [0x18, 1, 2, 3, 4, 5, 6, 7, 8] 0).streamBytes (0 + 8) [1, 2, 3, 4, 5, 6, 7, 8]) ∧
    ((loaded [0x30] 0).streamField 0 4 3 ∧ (loaded [0x30] 0).streamField (0 + 4) 4 0 ∧ (loaded [0x30] 0).streamBytes (0 + 8) []) :=
  ⟨not_inStream_of (by decide), ⟨streamField_of (by decide), not_inStream_of (by decide)⟩,
    ⟨streamField_of (by decide), streamField_of (by decide), by decide⟩,
    ⟨streamField_of (by decide), streamField_of (by decide), by decide, not_inStream_of (by decide)⟩,
    ⟨streamField_of (by decide), streamBytes_of (by decide)⟩,
    ⟨streamField_of (by decide), streamField_of (by decide), streamBytes_of (by decide)⟩⟩
/-- READ_H0: the counter cut off, one above HANDLE_MAX, payload at HANDLE_MAX and one bit short, and empty. -/
theorem test_witness_InferredCodeHandleReader :
    ¬(loaded [0x00] 1).inStream (loaded [0x00] 1).cursor.toNat 8 ∧
    ((loaded [0x09] 0).streamField 0 8 9 ∧ Config.standard.handleMax < 9) ∧
    ((loaded [0x08, 1, 2, 3, 4, 5, 6, 7] 0).streamField 0 8 8 ∧ 8 ≤ Config.standard.handleMax ∧
      ¬(loaded [0x08, 1, 2, 3, 4, 5, 6, 7] 0).inStream (0 + 8) (8 * 8)) ∧
    ((loaded [0x08, 1, 2, 3, 4, 5, 6, 7, 8] 0).streamField 0 8 8 ∧
      (loaded [0x08, 1, 2, 3, 4, 5, 6, 7, 8] 0).streamBytes (0 + 8) [1, 2, 3, 4, 5, 6, 7, 8]) ∧
    ((loaded [0x00] 0).streamField 0 8 0 ∧ (loaded [0x00] 0).streamBytes (0 + 8) []) :=
  ⟨not_inStream_of (by decide), ⟨streamField_of (by decide), by decide⟩,
    ⟨streamField_of (by decide), by decide, not_inStream_of (by decide)⟩,
    ⟨streamField_of (by decide), streamBytes_of (by decide)⟩, ⟨streamField_of (by decide), streamBytes_of (by decide)⟩⟩

/-- Some command commits and some command faults, from a state with no fault recorded. -/
theorem test_witness_CommandsCommitOrFault :
    (∃ t, exec .readRC (loaded fix 88) = .next t ∧ t.fault = false) ∧
      ((loaded fix 89).fault = false ∧ ∃ t, exec .readRC (loaded fix 89) = .next t ∧ t.fault = true) ∧
    .readRC ∉ payloadCommands ∧ (∃ t, exec .readTV (loaded [0x40, 0xD0, 0x50, 0x90, 0xC0] 0) = .next t ∧ t.plen = 3) ∧
      ∃ t, exec .readH0 (loaded [0x00] 0) = .next t ∧ t.plen = 0 :=
  ⟨⟨_, rfl, rfl⟩, ⟨rfl, ⟨_, rfl, rfl⟩⟩, by decide, ⟨_, rfl, rfl⟩, ⟨_, rfl, rfl⟩⟩

/-- Both grounds of an illegal word, and the states of both clauses. -/
theorem test_witness_IllegalWordsFault :
    illegalWord 0x101 ∧ illegalWord 0xFF ∧ ((loaded fix 0).busy = false ∧ (loaded fix 0).fault = false) ∧
      ({ loaded fix 0 with pending := 0xFF, busy := true } : State).turns = [] :=
  ⟨.inl (by decide), .inr (fun i => by cases i <;> decide), ⟨rfl, rfl⟩, rfl⟩

theorem test_witness_StepRunsDecodedInstruction :
    ((pendingOn .readH (loaded fix 0)).busy = true ∧ decode (pendingOn .readH (loaded fix 0)).pending = .ok .readH ∧
      (pendingOn .readH (loaded fix 0)).turns = []) ∧
    ({ pendingOn .readH (loaded fix 0) with turns := [.engine, .host] } : State).turns = .engine :: [.host] ∧
    (decodeTableWord 8 0x31 = some .readH ∧ State.reset.turns = []) := by decide

/-- Every byte below BUFLEN written, and a command refused for one that was not. -/
theorem test_witness_EveryCommandEnds :
    (loaded fix 0).bufferLoaded ∧ exec .readRC (loadedWith Config.standard [] 1 0) = .refused (.unwrittenBuf 0) :=
  ⟨by unfold State.bufferLoaded; decide, rfl⟩

theorem test_witness_CursorMovesForward_READ_B :
    (loaded fix 95).Inv ∧ (∃ t, exec .readB (loaded fix 95) = .next t ∧ t.fault = false ∧ t.cursor = 96) ∧
      (loaded fix 94).Inv ∧ ∃ t, exec .readBB (loaded fix 94) = .next t ∧ t.fault = false ∧ t.cursor = 96 :=
  ⟨inv_of (by decide), ⟨_, rfl, rfl, rfl⟩, inv_of (by decide), ⟨_, rfl, rfl, rfl⟩⟩

theorem test_witness_CursorMovesForward :
    (loaded fix 88).Inv ∧ (loaded fix 88).fault = false ∧ (∃ t, exec .readRC (loaded fix 88) = .next t ∧ t.fault = false) ∧
      (loaded fix 89).Inv ∧ ∃ t, exec .readRC (loaded fix 89) = .next t ∧ t.fault = true :=
  ⟨inv_of (by decide), rfl, ⟨_, rfl, rfl⟩, inv_of (by decide), ⟨_, rfl, rfl⟩⟩

/-- Two buffers that differ at BUFLEN and agree below it. -/
theorem test_witness_EngineReadsOnlyBelowBuflen :
    (∀ a, a < (loaded fix 0).buflen.toNat →
      Memory.read (Memory.write (loaded fix 0).buf 12 0xEE) a = Memory.read (loaded fix 0).buf a) ∧
      Memory.write (loaded fix 0).buf 12 0xEE ≠ (loaded fix 0).buf := by decide

theorem test_witness_ResetMeetsInvariant : Config.standard.wf = true ∧ Config.wf { Config.standard with bufCap := 1 } = true := by
  decide

/-- A state that meets the invariant and steps: by the engine's commit and fault, by the host, by reset. -/
theorem test_witness_StepKeepsInvariant :
    ((pendingOn .readH0 (loaded [0x01, 0x7F] 0)).Inv ∧ ∃ t, step (pendingOn .readH0 (loaded [0x01, 0x7F] 0)) = .next t) ∧
    ((pendingOn .readBL (loaded [0xC0] 0)).Inv ∧ ∃ t, step (pendingOn .readBL (loaded [0xC0] 0)) = .next t) ∧
    ((hostAt faulted (.wr 0x08 2)).Inv ∧ ∃ t, step (hostAt faulted (.wr 0x08 2)) = .next t) ∧
    (({ faulted with turns := [.reset] } : State).Inv ∧ ∃ t, step { faulted with turns := [.reset] } = .next t) :=
  ⟨⟨inv_of (by decide), ⟨_, rfl⟩⟩, ⟨inv_of (by decide), ⟨_, rfl⟩⟩, ⟨inv_of (by decide), ⟨_, rfl⟩⟩,
    ⟨inv_of (by decide), ⟨_, rfl⟩⟩⟩

theorem test_witness_ParametersNeverChange : ∃ t, step (pendingOn .readB (loaded fix 0)) = .next t := ⟨_, rfl⟩

/-- The reset input with a command in progress and with a fault recorded. -/
theorem test_witness_ResetStateAnyPhase :
    ({ pendingOn .readB (loaded fix 0) with turns := [.reset] } : State).turns = .reset :: [] ∧
      ({ faulted with turns := [.reset, .host] } : State).turns = .reset :: [.host] := by decide

theorem test_witness_CommandAcceptance :
    (pendingOn .readB (loaded fix 0)).busy = true ∧ faulted.fault = true ∧ (loaded fix 0).busy = false ∧
      (loaded fix 0).fault = false := by decide

theorem test_witness_StatusWriteOneToClear :
    (0x2 : Word).getLsbD 1 = true ∧ (0x4 : Word).getLsbD 1 = false ∧ (0x4 : Word).getLsbD 2 = true ∧
      (0x2 : Word).getLsbD 2 = false := by decide

/-- The last port index, BUFLEN at and one above BUF_CAP, the first and last reserved offset. -/
theorem test_witness_DroppedAndIgnoredWrites :
    (pendingOn .readB (loaded fix 0)).busy = true ∧ faulted.fault = true ∧ faulted.busy = false ∧
      63 < faulted.cfg.bufCap ∧ faulted.cfg.bufCap < (65 : Word).toNat ∧ (64 : Word).toNat ≤ faulted.cfg.bufCap ∧
      (0x50 ≤ 0x50 ∧ 0x50 ≤ 0xF8 ∧ 0x50 % 8 = 0) ∧ 0x50 ≤ 0xF8 ∧ 0xF8 ≤ 0xF8 ∧ 0xF8 % 8 = 0 := by decide

theorem test_witness_BufferPortWritesOneByte : (loaded fix 0).busy = false ∧ 63 < (loaded fix 0).cfg.bufCap := by decide

theorem test_witness_RegisterReadsWhileIdle : faulted.busy = false ∧ 0x50 ≤ 0xF8 ∧ 0xF8 % 8 = 0 := by decide

theorem test_witness_ReadsWhileBusy :
    (pendingOn .readB (loaded fix 0)).busy = true ∧ 11 < (loaded fix 0).cfg.bufCap ∧
      Memory.read (pendingOn .readB (loaded fix 0)).buf 11 = some 0xBC ∧ 65534 < (loaded fix 0).cfg.payloadCap := by decide

/-- A written byte and one never written, in BUF and in PAYLOAD, at the last port index. -/
theorem test_witness_PortReadsWhileIdle :
    (loaded fix 0).busy = false ∧ Memory.read (loaded fix 0).buf 11 = some 0xBC ∧ 63 < (loaded fix 0).cfg.bufCap ∧
      Memory.read (loaded fix 0).buf 63 = none ∧ 65534 < (loaded fix 0).cfg.payloadCap ∧
      Memory.read (loaded fix 0).payload 65534 = none ∧
      Memory.read ({ loaded fix 0 with payload := [(0, 0x41)], plen := 1 } : State).payload 0 = some 0x41 := by decide

/-- The first bad index, offset and alignment, while BUSY = 0 and while BUSY = 1 (log 21). -/
theorem test_witness_IllFormedAccessesRefused :
    (loaded fix 0).busy = false ∧ (loaded fix 0).cfg.bufCap ≤ 64 ∧ (loaded fix 0).cfg.payloadCap ≤ 65535 ∧ 0x09 % 8 ≠ 0 ∧
      0xF8 < 0x100 ∧ (pendingOn .readB (loaded fix 0)).busy = true ∧
      (pendingOn .readB (loaded fix 0)).cfg.bufCap ≤ 64 ∧ (pendingOn .readB (loaded fix 0)).cfg.payloadCap ≤ 65535 := by decide
theorem test_bad_index_refused_while_busy :
    stepRefused { hostAt (pendingOn .readB (loaded fix 0)) (.wb 64 0) with turns := [.host] } (.badPortIndex 64) = true := by
  decide

theorem test_witness_HostNeverWritesEngineState :
    (∃ t, hostTurn (hostAt (pendingOn .readB (loaded fix 0)) (.wr 0x10 5)) = .next t) ∧
      (hostAt (pendingOn .readB (loaded fix 0)) (.wr 0x10 5)).busy = true := ⟨⟨_, rfl⟩, rfl⟩

theorem test_witness_FaultStaysUntilCleared :
    (hostAt faulted (.wr 0x00 1)).Inv ∧ (hostAt faulted (.wr 0x00 1)).fault = true ∧
      ∃ t, step (hostAt faulted (.wr 0x00 1)) = .next t := ⟨inv_of (by decide), rfl, ⟨_, rfl⟩⟩

theorem test_witness_BusyAccessesLeaveTheCommandAlone :
    (hostAt (pendingOn .readRC (loaded fix 4)) (.wb 0 0)).Inv ∧ (hostAt (pendingOn .readRC (loaded fix 4)) (.wb 0 0)).busy = true ∧
      ∃ t, hostTurn (hostAt (pendingOn .readRC (loaded fix 4)) (.wb 0 0)) = .next t := ⟨inv_of (by decide), rfl, ⟨_, rfl⟩⟩

/-- A pending command with no turn scheduled, and with one for the host. -/
theorem test_witness_PendingCommandEndsInTime :
    (∃ t, step (pendingOn .readB (loaded fix 0)) = .next t ∧ t.busy = false) ∧
      ∃ t, step { pendingOn .readB (loaded fix 0) with turns := [.host] } = .next t ∧ t.busy = true :=
  ⟨⟨_, rfl, rfl⟩, ⟨_, rfl, rfl⟩⟩

theorem test_witness_IdleMachineRests :
    State.reset.runOver ∧ (hostAt (loaded fix 0) .halt).runOver ∧
      ({ loaded fix 0 with turns := [.engine] } : State).turns = .engine :: [] := ⟨⟨rfl, rfl, rfl⟩, ⟨rfl, rfl, rfl⟩, rfl⟩

/-- An instance that steps beside another, the same instance in another system, and one whose step is refused. -/
theorem test_witness_InstancesAreIndependent :
    ([loaded fix 0, pendingOn .readB (loaded fix 0)] : List State)[1]? = some (pendingOn .readB (loaded fix 0)) ∧
    (∃ sys', systemStep [loaded fix 0, pendingOn .readB (loaded fix 0)] 1 = .next sys') ∧ 0 ≠ 1 ∧
    ([faulted, pendingOn .readB (loaded fix 0)] : List State)[1]? = some (pendingOn .readB (loaded fix 0)) ∧
    step (pendingOn .readRC (loadedWith Config.standard [] 1 0)) = .refused (.unwrittenBuf 0) :=
  ⟨rfl, ⟨_, rfl⟩, by decide, rfl, rfl⟩

/-- A program with two polls and a label of its own: the hypotheses hold at the second poll's label. -/
theorem test_witness_PseudoStatementsExpand :
    (∀ m, HostLine.stmt (.label (.poll m)) ∉ ([.run .readB, .stmt (.label (.user 0)), .poll] : List HostLine)) ∧
      (expandProgram [.run .readB, .stmt (.label (.user 0)), .poll])[5]? = some (.label (.poll 2)) :=
  ⟨fun m => by simp, by decide⟩

/-- The accesses a statement makes complete, and a jump taken, not taken and unconditional. -/
theorem test_witness_HostStatements :
    (∃ t, hostWriteReg 0x18 4 (hostAt State.reset (.wr 0x18 4)) = .next t) ∧
    (∃ t, hostReadReg 0x08 (hostAt State.reset (.rd 0x08)) = .next t) ∧
    (∃ t, hostWriteBuf 63 1 (hostAt State.reset (.wb 63 1)) = .next t) ∧
    (∃ t, hostReadBuf 63 (hostAt State.reset (.rb 63)) = .next t) ∧
    (∃ t, hostReadPay 0 (hostAt State.reset (.rp 0)) = .next t) ∧
    (0x3 : Word).getLsbD 0 = true ∧ (0x3 : Word).getLsbD 1 = true ∧ (0x4 : Word).getLsbD 0 = false ∧ (0x4 : Word).getLsbD 1 = false ∧
    ([.rd 8, .label (.user 1), .jmp (.user 1)] : List HostStmt)[1]? = some (.label (.user 1)) ∧
    ∀ q, q < 1 → ([.rd 8, .label (.user 1), .jmp (.user 1)] : List HostStmt)[q]? ≠ some (.label (.user 1)) :=
  ⟨⟨_, rfl⟩, ⟨_, rfl⟩, ⟨_, rfl⟩, ⟨_, rfl⟩, ⟨_, rfl⟩, by decide⟩

end Sys2Proof.Tests
end

section
/-! The implementation parameters are no step's to change (R7): one lemma per mover, then the step. -/

namespace Sys2Proof.Machine

/-! ### Each mover keeps the parameters -/

theorem HostEffect.cfg_eq {s t : State} (h : HostEffect s t) : t.cfg = s.cfg := by
  cases h with
  | status w h hp => exact writeStatus_cfg w s
  | _ => rfl

theorem hostTurn_cfg {s t : State} (h : hostTurn s = .next t) : t.cfg = s.cfg := (hostTurn_effect h).cfg_eq

/-- A command ends in a commit or a raised fault (R222); neither writes the parameters. -/
theorem exec_cfg {i : Instr} {s t : State} (h : exec i s = .next t) : t.cfg = s.cfg := by
  rw [exec_eq_endCommand] at h
  obtain ⟨w, c, -, rfl⟩ | ⟨k, p, d, -, rfl⟩ := endCommand_eq_next.1 h
  · exact commit_cfg w c s
  · exact raiseFault_cfg k p d s

theorem engineStep_cfg {s t : State} (h : engineStep s = .next t) : t.cfg = s.cfg := by
  obtain ⟨i, -, hexec⟩ | ⟨_, -, rfl⟩ := engineStep_cases h
  · exact exec_cfg hexec
  · exact raiseFault_cfg _ _ _ s

/-- Settles O29, by who moved: the host, the engine (at rest or busy) or the reset input. -/
theorem parametersNeverChange : Obligations.ParametersNeverChange := by
  intro s t h
  obtain ⟨-, -, hhost⟩ | ⟨-, -, hengine⟩ | ⟨ts, -, hhost⟩ | ⟨ts, -, -, rfl⟩ | ⟨ts, -, -, hengine⟩ | ⟨ts, -, rfl⟩ :=
    step_cases h
  · exact hostTurn_cfg hhost
  · exact engineStep_cfg hengine
  · exact hostTurn_cfg (s := { s with turns := ts }) hhost
  · rfl
  · exact engineStep_cfg (s := { s with turns := ts }) hengine
  · exact resetEvent_cfg _

end Sys2Proof.Machine
end

section
/-! The registers the host sees: a STATUS write (R41), the register reads while BUSY = 0 (R33 to R49), and what no turn of the
host writes (R37 to R39, R42 to R44, R82). -/

namespace Sys2Proof.Machine

open Sys2Proof.Claims

/-! ### A STATUS write -/

/-- STATUS is in the window and writable in every phase (R41, R81). -/
theorem hostWriteReg_status (w : Word) (s : State) : hostWriteReg 0x08 w s = .next (writeStatus w s) := rfl

/-- Bit 1 set is the return from a fault (R41, R229). -/
theorem writeStatus_of_bit1 {w : Word} (h : w.getLsbD 1 = true) (s : State) :
    (writeStatus w s).fault = false ∧ (writeStatus w s).cause = 0 := by
  simp only [writeStatus_fault, writeStatus_cause, h, Bool.not_true, Bool.and_false, if_true, and_self]

theorem writeStatus_of_not_bit1 {w : Word} (h : w.getLsbD 1 = false) (s : State) :
    (writeStatus w s).fault = s.fault ∧ (writeStatus w s).cause = s.cause := by
  simp only [writeStatus_fault, writeStatus_cause, h, Bool.not_false, Bool.and_true, Bool.false_eq_true, if_false,
    and_self]

/-- Settles O32: the next state is `writeStatus w s`, whose three fields follow the two bits. -/
theorem statusWriteOneToClear : Obligations.StatusWriteOneToClear := by
  intro s w
  refine ⟨writeStatus w s, hostWriteReg_status w s, rfl, fun h1 => writeStatus_of_bit1 h1 s,
    fun h1 => writeStatus_of_not_bit1 h1 s, fun h2 => ?_, fun h2 => ?_⟩
  · rw [writeStatus_drop, h2, Bool.not_true, Bool.and_false]
  · rw [writeStatus_drop, h2, Bool.not_false, Bool.and_true]

/-! ### A register read -/

/-- A read at an offset of the window notes the value it saw and changes nothing of the block (R81, R83). -/
theorem hostReadReg_notes {off : Nat} (hoff : offsetOk off = true) (s : State) :
    notes (hostReadReg off s) s (.reg off (regSeen off s)) :=
  ⟨_, if_pos hoff, rfl, rfl⟩

/-- While BUSY = 0 a read sees the register's own value (R256). -/
theorem regSeen_of_idle {s : State} (hb : s.busy = false) (off : Nat) : regSeen off s = regValue off s := by
  simp [regSeen, hb]

theorem regValue_status_of_idle {s : State} (hb : s.busy = false) :
    regValue 0x08 s = BitVec.ofNat 64 (2 * s.fault.toNat + 4 * s.drop.toNat + 16 * s.cause.toNat) := by
  have hword := statusWord_eq s
  rwa [hb, Bool.toNat_false, Nat.zero_add] at hword

theorem regValue_hcode (s : State) : regValue 0x30 s = BitVec.ofNat 64 s.hcode.toNat := (BitVec.ofNat_toNat 64 s.hcode).symm

theorem regValue_plen (s : State) : regValue 0x38 s = BitVec.ofNat 64 s.plen.toNat := (BitVec.ofNat_toNat 64 s.plen).symm

theorem regValue_faultInfo (s : State) :
    regValue 0x48 s = BitVec.ofNat 64 (s.faultOp.toNat + 65536 * s.faultDetail.toNat) :=
  faultInfoWord_eq s

theorem offsetOk_of_aligned {off : Nat} (hle : off ≤ 0xF8) (halign : off % 8 = 0) : offsetOk off = true :=
  decide_eq_true ⟨halign, hle⟩

/-- Settles O35: each offset is in the window and its register holds the value the layout gives. -/
theorem registerReadsWhileIdle : Obligations.RegisterReadsWhileIdle := by
  intro s off v hb hlayout
  have key : offsetOk off = true ∧ regValue off s = v := by
    obtain hlisted | ⟨hge, hle, halign, rfl⟩ := hlayout
    · simp only [List.mem_cons, List.not_mem_nil, or_false, Prod.mk.injEq] at hlisted
      obtain ⟨rfl, rfl⟩ | ⟨rfl, rfl⟩ | ⟨rfl, rfl⟩ | ⟨rfl, rfl⟩ | ⟨rfl, rfl⟩ | ⟨rfl, rfl⟩ | ⟨rfl, rfl⟩ | ⟨rfl, rfl⟩ |
        ⟨rfl, rfl⟩ | ⟨rfl, rfl⟩ := hlisted
      · exact ⟨rfl, rfl⟩
      · exact ⟨rfl, regValue_status_of_idle hb⟩
      · exact ⟨rfl, rfl⟩
      · exact ⟨rfl, rfl⟩
      · exact ⟨rfl, rfl⟩
      · exact ⟨rfl, rfl⟩
      · exact ⟨rfl, regValue_hcode s⟩
      · exact ⟨rfl, regValue_plen s⟩
      · exact ⟨rfl, rfl⟩
      · exact ⟨rfl, regValue_faultInfo s⟩
    · exact ⟨offsetOk_of_aligned hle halign, (reserved_offset hge hle halign 0 s).2.1⟩
  obtain ⟨hoff, rfl⟩ := key
  simpa only [regSeen_of_idle hb] using hostReadReg_notes hoff s

/-! ### What no turn of the host writes -/

/-- The results and the fault record are the engine's: no effect of a host turn writes them (R37 to R39, R42 to R44). -/
theorem HostEffect.engineState_eq {s t : State} (h : HostEffect s t) :
    t.result = s.result ∧ t.hcode = s.hcode ∧ t.plen = s.plen ∧ t.payload = s.payload ∧
      t.faultCursor = s.faultCursor ∧ t.faultOp = s.faultOp ∧ t.faultDetail = s.faultDetail := by
  cases h <;> exact ⟨rfl, rfl, rfl, rfl, rfl, rfl, rfl⟩

/-- While BUSY = 1 only the host's own side, DROP, FAULT and CAUSE can change: every other effect needs BUSY = 0 (R82). -/
theorem HostEffect.inputs_eq_of_busy {s t : State} (h : HostEffect s t) (hb : s.busy = true) :
    t.busy = true ∧ t.pending = s.pending ∧ t.cursor = s.cursor ∧ t.buflen = s.buflen ∧ t.dflt = s.dflt ∧
      t.buf = s.buf := by
  cases h with
  | own | dropped | status => exact ⟨hb, rfl, rfl, rfl, rfl, rfl⟩
  | cmd w h hidle | cursor w h hidle | buflen w h hidle | dflt w h hidle | buf a v h hidle => simp [hb] at hidle

/-- Settles O39, by the effects a turn of the host can have. -/
theorem hostNeverWritesEngineState : Obligations.HostNeverWritesEngineState := by
  intro s t hturn
  have heffect := hostTurn_effect hturn
  obtain ⟨hresult, hhcode, hplen, hpayload, hcursor, hop, hdetail⟩ := heffect.engineState_eq
  exact ⟨hresult, hhcode, hplen, hpayload, hcursor, hop, hdetail, heffect.inputs_eq_of_busy⟩

end Sys2Proof.Machine
end

section
/-! Bounds the admissible parameters give (00_scope.md section 4), and CURSOR moving forward on a commit (R34, R223). -/

namespace Sys2Proof

theorem Config.wf_bufCap_le {k : Config} (h : k.wf = true) : k.bufCap ≤ 2 ^ 60 := by
  simp only [Config.wf, Config.bufCapOk, Bool.and_eq_true, decide_eq_true_eq] at h
  omega

theorem Config.wf_handleMax_le {k : Config} (h : k.wf = true) : k.handleMax ≤ k.payloadCap := by
  simp only [Config.wf, Config.payloadCapOk, Bool.and_eq_true, decide_eq_true_eq] at h
  omega

theorem Config.wf_payloadCap_le {k : Config} (h : k.wf = true) : k.payloadCap ≤ 65535 := by
  simp only [Config.wf, Config.payloadCapOk, Bool.and_eq_true, decide_eq_true_eq] at h
  omega

end Sys2Proof

namespace Sys2Proof.Machine

/-! ### Committed positions -/

theorem leastBits_pos (i : Instr) : 1 ≤ leastBits i := by cases i <;> decide

/-- READ_B is the only command of one bit (R102). -/
theorem two_le_leastBits {i : Instr} (h : i ≠ .readB) : 2 ≤ leastBits i := by
  cases i with
  | readB => exact absurd rfl h
  | _ => decide

/-- A position of the stream fits CURSOR: 8 * BUFLEN is below 2^64. -/
theorem State.Inv.toNat_ofNat_position {s : State} (hs : s.Inv) {c : Nat} (hc : c ≤ 8 * s.buflen.toNat) :
    (BitVec.ofNat 64 c).toNat = c := by
  have hcap := Config.wf_bufCap_le hs.cfgOk
  have hlen := hs.buflenLe
  exact (BitVec.toNat_ofNat _ _).trans (Nat.mod_eq_of_lt (by omega))

/-- A command that commits ends at least its fewest bits further on, inside the stream. -/
theorem pseudocode_ok_position {s : State} {i : Instr} {w : Staged} {c : Nat} (h : pseudocode s i = .ok w c) :
    s.cursor.toNat + leastBits i ≤ c ∧ c ≤ 8 * s.buflen.toNat := by
  have hwithin := (pseudocode_within s i).onOk w c h
  have hpos := leastBits_pos i
  omega

/-- READ_B consumes exactly one bit (R141). -/
theorem pseudocode_readB_position {s : State} {w : Staged} {c : Nat} (h : pseudocode s .readB = .ok w c) :
    c = s.cursor.toNat + 1 := by
  obtain ⟨v, c', hread, hstage⟩ := Got.bind_eq_ok.1 h
  obtain ⟨-, -, rfl⟩ := readField_eq_ok.1 hread
  cases hstage
  rfl

/-- Settles O25: a commit puts CURSOR at the position the pseudocode reached, a fault leaves it. -/
theorem cursorMovesForward : Obligations.CursorMovesForward := by
  intro i s t hs hnofault hexec
  rw [exec_eq_endCommand] at hexec
  obtain ⟨w, c, hok, rfl⟩ | ⟨k, p, d, -, rfl⟩ := endCommand_eq_next.1 hexec
  · obtain ⟨hge, hle⟩ := pseudocode_ok_position hok
    have hpos := leastBits_pos i
    rw [commit_fault, commit_cursor, hs.toNat_ofNat_position hle]
    refine ⟨fun hfault => ?_, fun _ => ⟨by omega, hle, fun hi => ?_, fun hi => ?_⟩⟩
    · exact absurd (hnofault.symm.trans hfault) Bool.false_ne_true
    · have htwo := two_le_leastBits hi
      omega
    · subst hi
      exact pseudocode_readB_position hok
  · exact ⟨fun _ => raiseFault_cursor k p d s, fun hfault => by simp at hfault⟩

end Sys2Proof.Machine
end

section
/-! Every step keeps the invariant: one lemma per mover (the engine's commit and fault, the host's effects, the reset input,
the schedule), then the step. -/

namespace Sys2Proof.Machine

/-! ### A committed payload fits PAYLOAD -/

/-- The cap on a handle's counter bounds its payload (R202). -/
theorem handlePayload_length_le {s : State} {pos n c c' : Nat} {r : List Byte} (h : handlePayload s pos n c = .ok r c') :
    r.length ≤ s.cfg.handleMax := by
  rw [handlePayload_length h]
  unfold handlePayload at h
  split at h
  · cases h
  · omega

/-- The cap on a text's length bounds its payload (R201). -/
theorem textPayload_length_le {s : State} {c c' : Nat} {r : List Byte} (h : textPayload s c = .ok r c') :
    r.length ≤ s.cfg.payloadCap := by
  obtain ⟨l, c1, -, hread⟩ := Got.bind_eq_ok.1 h
  split at hread
  · cases hread
  · rw [readBytes_length hread]
    omega

/-- Every payload a command stages fits PAYLOAD, since HANDLE_MAX is at most PAYLOAD_CAP (R9). -/
theorem pseudocode_payload_length_le {s : State} {i : Instr} {w : Staged} {c : Nat} {r : List Byte} (hcfg : s.cfg.wf = true)
    (h : pseudocode s i = .ok w c) (hr : w.payload = some r) : r.length ≤ s.cfg.payloadCap := by
  have hcap := Config.wf_handleMax_le hcfg
  cases pseudocode_staged h with
  | scalar => cases hr
  | text =>
    cases hr
    obtain ⟨r', c1, htext, hstage⟩ := Got.bind_eq_ok.1 h
    cases hstage
    exact textPayload_length_le htext
  | handle =>
    cases hr
    obtain ⟨code, c1, -, h⟩ := Got.bind_eq_ok.1 h
    obtain ⟨n, c2, -, h⟩ := Got.bind_eq_ok.1 h
    obtain ⟨r', c3, hhandle, hstage⟩ := Got.bind_eq_ok.1 h
    cases hstage
    exact (handlePayload_length_le hhandle).trans hcap
  | handle0 =>
    cases hr
    obtain ⟨n, c1, -, h⟩ := Got.bind_eq_ok.1 h
    obtain ⟨r', c2, hhandle, hstage⟩ := Got.bind_eq_ok.1 h
    cases hstage
    exact (handlePayload_length_le hhandle).trans hcap

/-! ### Each mover keeps the invariant -/

/-- The invariant does not speak of the schedule. -/
theorem State.Inv.withTurns {s : State} (hs : s.Inv) (ts : List Turn) : State.Inv { s with turns := ts } := { hs with }

/-- The reset input leaves the reset state's block, whatever came before (R250). -/
theorem State.Inv.resetEvent {s : State} (hs : s.Inv) : (resetEvent s).Inv where
  cfgOk := hs.cfgOk
  buflenLe := Nat.zero_le _
  plenLe := Nat.zero_le _
  phaseOk := rfl
  causeIffFault := by simp
  causeLe := by simp
  bufWf := rfl
  payloadWf := rfl
  bufBelowCap _ _ := rfl
  payloadBelowCap _ _ := rfl
  payloadHeld i hi := absurd hi (Nat.not_lt_zero i)

theorem Cause.code_ne_zero (k : Cause) : k.code ≠ 0 := by cases k <;> decide

theorem Cause.code_le_six (k : Cause) : k.code.toNat ≤ 6 := by cases k <;> decide

/-- A raised fault records FAULT with a cause and clears BUSY (R224, R225). -/
theorem State.Inv.raiseFault {s : State} (hs : s.Inv) (k : Cause) (p d : Nat) : (raiseFault k p d s).Inv :=
  { hs with
    phaseOk := rfl
    causeIffFault := iff_of_false k.code_ne_zero (by simp)
    causeLe := k.code_le_six }

/-- A commit keeps the invariant where the staged payload fits PAYLOAD: PLEN then counts exactly the bytes it wrote (R200). -/
theorem State.Inv.commit {s : State} {w : Staged} (hs : s.Inv) (c : Nat)
    (hw : ∀ r, w.payload = some r → r.length ≤ s.cfg.payloadCap) : (commit w c s).Inv := by
  obtain ⟨result, hcode, payload⟩ := w
  cases payload with
  | none => exact { hs with phaseOk := rfl }
  | some r =>
    have hlen : r.length ≤ s.cfg.payloadCap := hw r rfl
    have hcap := Config.wf_payloadCap_le hs.cfgOk
    have hplen : (BitVec.ofNat 16 r.length).toNat = r.length := (BitVec.toNat_ofNat _ _).trans (Nat.mod_eq_of_lt (by omega))
    exact
      { hs with
        phaseOk := rfl
        plenLe := hplen.trans_le hlen
        payloadWf := Memory.wf_writeRun s.payload 0 r hs.payloadWf
        payloadBelowCap := fun a ha =>
          (Memory.read_writeRun_above s.payload a r (hlen.trans ha)).trans (hs.payloadBelowCap a ha)
        payloadHeld := fun a ha =>
          Option.isSome_of_eq_some (Memory.read_writeRun_zero s.payload a r (ha.trans_eq hplen)) }

/-- The engine's step ends in a commit that fits or in a recorded fault (R222). -/
theorem State.Inv.engineStep {s t : State} (hs : s.Inv) (h : engineStep s = .next t) : t.Inv := by
  obtain ⟨i, -, hexec⟩ | ⟨_, -, rfl⟩ := engineStep_cases h
  · rw [exec_eq_endCommand] at hexec
    obtain ⟨w, c, hok, rfl⟩ | ⟨k, p, d, -, rfl⟩ := endCommand_eq_next.1 hexec
    · exact hs.commit c fun r hr => pseudocode_payload_length_le hs.cfgOk hok hr
    · exact hs.raiseFault k p d
  · exact hs.raiseFault _ _ _

/-- A STATUS write clears FAULT and CAUSE together or leaves both (R41). -/
theorem State.Inv.writeStatus {s : State} (hs : s.Inv) (w : Word) : (writeStatus w s).Inv := by
  cases hclear : w.getLsbD 1 with
  | true =>
    obtain ⟨hfault, hcause⟩ := writeStatus_of_bit1 hclear s
    exact
      { hs with
        phaseOk := by rw [hfault, Bool.and_false]
        causeIffFault := iff_of_true hcause hfault
        causeLe := by rw [hcause]; decide }
  | false =>
    obtain ⟨hfault, hcause⟩ := writeStatus_of_not_bit1 hclear s
    exact
      { hs with
        phaseOk := by rw [hfault]; exact hs.phaseOk
        causeIffFault := by rw [hfault, hcause]; exact hs.causeIffFault
        causeLe := by rw [hcause]; exact hs.causeLe }

/-- Every effect of a host turn keeps the invariant; a command is accepted only with FAULT = 0 (R221). -/
theorem State.Inv.hostEffect {s t : State} (hs : s.Inv) (h : HostEffect s t) : t.Inv := by
  cases h with
  | own | dropped | cursor | dflt => exact { hs with }
  | status w h hp => exact { hs.writeStatus w with }
  | cmd w h hb hf => exact { hs with phaseOk := by simpa using hf }
  | buflen w h hb hw => exact { hs with buflenLe := hw }
  | buf a v h hb ha =>
    exact
      { hs with
        bufWf := Memory.wf_write s.buf a v hs.bufWf
        bufBelowCap := fun b hcap =>
          (Memory.read_write_other s.buf v (ha.trans_le hcap).ne).trans (hs.bufBelowCap b hcap) }

theorem State.Inv.hostTurn {s t : State} (hs : s.Inv) (h : hostTurn s = .next t) : t.Inv :=
  hs.hostEffect (hostTurn_effect h)

/-- Settles O28, by who moved: the host, the engine (at rest or busy) or the reset input. -/
theorem stepKeepsInvariant : Obligations.StepKeepsInvariant := by
  intro s t hs h
  obtain ⟨-, -, hhost⟩ | ⟨-, -, hengine⟩ | ⟨ts, -, hhost⟩ | ⟨ts, -, -, rfl⟩ | ⟨ts, -, -, hengine⟩ | ⟨ts, -, rfl⟩ :=
    step_cases h
  · exact hs.hostTurn hhost
  · exact hs.engineStep hengine
  · exact (hs.withTurns ts).hostTurn hhost
  · exact hs.withTurns ts
  · exact (hs.withTurns ts).engineStep hengine
  · exact (hs.withTurns ts).resetEvent

end Sys2Proof.Machine
end

section
/-! The bit stream (R74, R75): a stream bit is a bit of its byte, a field is the sum of its bits, and a field is a slice of any
number whose bits stand in the stream, from which both byte-straddling forms follow. -/

namespace Sys2Proof.Machine

/-! ### Stream bits -/

theorem streamBit_of_read {m : Memory} {p : Nat} {b : Byte} (h : Memory.read m (p / 8) = some b) :
    streamBit m p = some (b.getLsbD (7 - p % 8)).toNat := by
  have hbit : (b.toNat >>> (7 - p % 8)) &&& 1 = (b.getLsbD (7 - p % 8)).toNat := by
    rw [Nat.and_one_is_mod, Nat.shiftRight_eq_div_pow]
    exact (Nat.toNat_testBit _ _).symm
  simp only [streamBit, h, hbit]

theorem streamBit_of_unwritten {m : Memory} {p : Nat} (h : Memory.read m (p / 8) = none) : streamBit m p = none := by
  simp only [streamBit, h]

/-- Settles O4: the two branches of a stream bit. -/
theorem bitPositionIsMsbFirst : Obligations.BitPositionIsMsbFirst :=
  fun _ _ => ⟨fun _ => streamBit_of_read, streamBit_of_unwritten⟩

/-! ### A field by its bits -/

/-- The sum of a field's bits, by induction on the width: one more bit doubles the sum so far. -/
theorem field_eq_sum {m : Memory} {p n : Nat} {b : Nat → Nat} (h : ∀ k, k < n → streamBit m (p + k) = some (b k)) :
    field m p n = some (∑ k ∈ Finset.range n, b k <<< (n - 1 - k)) := by
  induction n with
  | zero => rfl
  | succ n ih =>
    refine field_succ_eq.2 ⟨_, _, ih fun k hk => h k (by omega), h n (by omega), ?_⟩
    have hdouble : ∀ k ∈ Finset.range n, b k <<< (n + 1 - 1 - k) = 2 * b k <<< (n - 1 - k) := fun k hk => by
      have hlt := Finset.mem_range.1 hk
      rw [show n + 1 - 1 - k = n - 1 - k + 1 by omega, Nat.shiftLeft_succ]
    rw [Finset.sum_range_succ, Finset.sum_congr rfl hdouble, ← Finset.mul_sum, Nat.add_sub_cancel, Nat.sub_self,
      Nat.shiftLeft_zero]

/-- Where the stream from `p` on shows the bits of `w` below bit `t`, most significant first, a field at `p` is the slice of
its width. -/
theorem field_of_window {m : Memory} {p n w t : Nat} (hn : n ≤ t)
    (h : ∀ k, k < n → streamBit m (p + k) = some (w.testBit (t - 1 - k)).toNat) :
    field m p n = some ((w >>> (t - n)) % 2 ^ n) := by
  induction n with
  | zero => simp only [field, Nat.pow_zero, Nat.mod_one]
  | succ n ih =>
    refine field_succ_eq.2 ⟨_, _, ih (by omega) fun k hk => h k (by omega), h n (by omega), ?_⟩
    have hshift : w >>> (t - n) = w >>> (t - (n + 1)) / 2 := by
      rw [show t - n = t - (n + 1) + 1 by omega, Nat.shiftRight_succ]
    have hlow : (w.testBit (t - 1 - n)).toNat = w >>> (t - (n + 1)) % 2 := by
      rw [Nat.toNat_testBit, Nat.shiftRight_eq_div_pow, show t - 1 - n = t - (n + 1) by omega]
    rw [hshift, hlow, Nat.pow_succ', Nat.mod_mul, Nat.add_comm]

/-! ### The two-byte window (R75) -/

theorem testBit_window_high {h l : Byte} {j : Nat} (hj : 8 ≤ j) :
    ((h.toNat <<< 8) ||| l.toNat).testBit j = h.getLsbD (j - 8) := by
  have hl : l.toNat.testBit j = false := BitVec.getLsbD_of_ge l j hj
  simp [Nat.testBit_or, Nat.testBit_shiftLeft, hj, hl, BitVec.getLsbD]

theorem testBit_window_low {h l : Byte} {j : Nat} (hj : j < 8) :
    ((h.toNat <<< 8) ||| l.toNat).testBit j = l.getLsbD j := by
  simp [Nat.testBit_or, Nat.testBit_shiftLeft, Nat.not_le.2 hj, BitVec.getLsbD]

/-- The stream from `p` to the end of the next byte shows the two-byte window; the second byte counts from bit 8 on. -/
theorem streamBit_of_window {m : Memory} {p k : Nat} {h l : Byte} (hk : p % 8 + k < 16)
    (hh : Memory.read m (p / 8) = some h) (hl : 8 ≤ p % 8 + k → Memory.read m (p / 8 + 1) = some l) :
    streamBit m (p + k) = some ((h.toNat <<< 8 ||| l.toNat).testBit (16 - p % 8 - 1 - k)).toNat := by
  obtain hfirst | hsecond := Nat.lt_or_ge (p % 8 + k) 8
  · have hbyte : Memory.read m ((p + k) / 8) = some h := by rwa [show (p + k) / 8 = p / 8 by omega]
    rw [streamBit_of_read hbyte, testBit_window_high (by omega),
      show 7 - (p + k) % 8 = 16 - p % 8 - 1 - k - 8 by omega]
  · have hbyte : Memory.read m ((p + k) / 8) = some l := by
      rw [show (p + k) / 8 = p / 8 + 1 by omega]; exact hl hsecond
    rw [streamBit_of_read hbyte, testBit_window_low (by omega), show 7 - (p + k) % 8 = 16 - p % 8 - 1 - k by omega]

/-- A field inside two bytes is the window shifted and masked; the second byte counts where `o + n > 8`. -/
theorem field_eq_window {m : Memory} {p n : Nat} {h l : Byte} (hn : p % 8 + n ≤ 16)
    (hh : Memory.read m (p / 8) = some h) (hl : 8 < p % 8 + n → Memory.read m (p / 8 + 1) = some l) :
    field m p n = some (((h.toNat <<< 8 ||| l.toNat) >>> (16 - p % 8 - n)) &&& (2 ^ n - 1)) := by
  rw [Nat.and_two_pow_sub_one_eq_mod]
  exact field_of_window (by omega) fun k hk => streamBit_of_window (by omega) hh fun h8 => hl (by omega)

/-- The window shifted right by `8 - o` is the first byte shifted left by `o`, over the second byte's top `o` bits. -/
theorem window_shiftRight (h l : Nat) {o : Nat} (ho : o ≤ 8) :
    (h <<< 8 ||| l) >>> (8 - o) = h <<< o ||| l >>> (8 - o) := by
  rw [Nat.shiftRight_or_distrib, ← Nat.shiftLeft_sub h (Nat.sub_le 8 o), Nat.sub_sub_self ho]

/-- Settles O5: the sum of the bits, the two-byte window, and the window at width 8. -/
theorem fieldIsMsbFirst : Obligations.FieldIsMsbFirst := by
  intro m p n _
  refine ⟨fun b => field_eq_sum, fun h l hn => field_eq_window hn, fun h l hh hl => ?_⟩
  have hbyte : field m p 8 = some (((h.toNat <<< 8 ||| l.toNat) >>> (16 - p % 8 - 8)) &&& (2 ^ 8 - 1)) :=
    field_eq_window (by omega) hh fun h8 => hl (by omega)
  rwa [show 16 - p % 8 - 8 = 8 - p % 8 by omega, window_shiftRight _ _ (by omega)] at hbyte

end Sys2Proof.Machine
end

section
/-! What a command does not see (R71, R77, R82, R85): a change of state that keeps its inputs and commutes with commit and
with raising a fault goes through the whole command. -/

namespace Sys2Proof.Machine

open Sys2Proof.Claims

/-! ### Changes the engine does not see -/

/-- The change `f` of the state `s` is one a command neither sees nor undoes: it keeps the command's inputs and commutes with
the two ends a command can have. -/
structure EngineBlind (f : State → State) (s : State) : Prop where
  inputs : SameInputs s (f s)
  commit : ∀ w c, Machine.commit w c (f s) = f (Machine.commit w c s)
  raiseFault : ∀ k p d, Machine.raiseFault k p d (f s) = f (Machine.raiseFault k p d s)

theorem EngineBlind.endCommand {f : State → State} {s : State} (h : EngineBlind f s) (x : Got Staged) :
    endCommand (f s) x = mapNext f (endCommand s x) := by
  cases x with
  | ok w c => exact congrArg Host.Outcome.next (h.commit w c)
  | raise k p d => exact congrArg Host.Outcome.next (h.raiseFault k p d)
  | refuse r => rfl

/-- Equal inputs give equal pseudocode, and the end of the command carries the change along. -/
theorem EngineBlind.exec {f : State → State} {s : State} (h : EngineBlind f s) (i : Instr) :
    exec i (f s) = mapNext f (exec i s) := by
  rw [exec_eq_endCommand, exec_eq_endCommand, h.inputs.pseudocode, h.endCommand]

theorem EngineBlind.engineStep {f : State → State} {s : State} (h : EngineBlind f s)
    (hpending : (f s).pending = s.pending) : engineStep (f s) = mapNext f (engineStep s) := by
  unfold Machine.engineStep
  rw [hpending, h.inputs.cursor]
  cases decode s.pending with
  | ok i => exact h.exec i
  | error e => exact congrArg Host.Outcome.next (h.raiseFault .illegalOp s.cursor.toNat 0)

/-! ### The bytes at and above BUFLEN -/

/-- No command writes BUF, and it reads BUF below BUFLEN alone (R45, R77). -/
theorem engineBlind_buf {s : State} {m : Memory}
    (h : ∀ a, a < s.buflen.toNat → Memory.read m a = Memory.read s.buf a) :
    EngineBlind (fun t => { t with buf := m }) s where
  inputs := { cfg := rfl, cursor := rfl, buflen := rfl, dflt := rfl, bytes := h }
  commit _ _ := rfl
  raiseFault _ _ _ := rfl

/-- Settles O26: a second buffer that agrees below BUFLEN is a change the engine does not see. -/
theorem engineReadsOnlyBelowBuflen : Obligations.EngineReadsOnlyBelowBuflen :=
  fun i _ _ h => (engineBlind_buf h).exec i

/-! ### The host while a command is pending -/

/-- DROP and the host side are no inputs of a command, and neither of its ends writes them (R48, R82). -/
theorem engineBlind_hostSide (d : Bool) (a : HostAgent) (n : Nat) (s : State) :
    EngineBlind (fun t => { t with drop := d, host := a, freeCount := n }) s where
  inputs := { cfg := rfl, cursor := rfl, buflen := rfl, dflt := rfl, bytes := fun _ _ => rfl }
  commit _ _ := rfl
  raiseFault _ _ _ := rfl

/-- While FAULT = 0 and CAUSE = 0 a STATUS write has nothing to clear but DROP (R41). -/
theorem writeStatus_of_no_fault {s : State} (w : Word) (hfault : s.fault = false) (hcause : s.cause = 0) :
    writeStatus w s = { s with drop := (writeStatus w s).drop } := by
  simp only [writeStatus, hfault, hcause, Bool.false_and, ite_self]

/-- While BUSY = 1 a turn of the host changes DROP and its own side alone: FAULT and CAUSE are already clear (R40, R220). -/
theorem HostEffect.eq_of_busy {s t : State} (h : HostEffect s t) (hs : s.Inv) (hb : s.busy = true) :
    t = { s with drop := t.drop, host := t.host, freeCount := t.freeCount } := by
  have hfault : s.fault = false := by simpa [hb] using hs.phaseOk
  cases h with
  | own | dropped => rfl
  | status w a hp =>
    exact congrArg (fun u => { u with host := a }) (writeStatus_of_no_fault w hfault (hs.causeIffFault.2 hfault))
  | cmd w a hidle | cursor w a hidle | buflen w a hidle | dflt w a hidle | buf b v a hidle => simp [hb] at hidle

/-- Settles O41: while BUSY = 1 the host's turn is a change the engine does not see. -/
theorem busyAccessesLeaveTheCommandAlone : Obligations.BusyAccessesLeaveTheCommandAlone := by
  intro s s' hs hb hturn
  have hstep := (engineBlind_hostSide s'.drop s'.host s'.freeCount s).engineStep rfl
  rwa [← (hostTurn_effect hturn).eq_of_busy hs hb] at hstep

end Sys2Proof.Machine
end

section
/-! The byte ports (R80): a write and its read back, the reads while BUSY = 0, and the accesses outside the ports and the
window (R81). -/

namespace Sys2Proof.Machine

open Sys2Proof.Claims

/-! ### Port accesses inside the capacity -/

/-- While BUSY = 0 a port write in range takes effect, and on BUF alone (R80, R231). -/
theorem hostWriteBuf_of_idle {s : State} {a : Nat} (hb : s.busy = false) (ha : a < s.cfg.bufCap) (v : Byte) :
    hostWriteBuf a v s = .next { s with buf := Memory.write s.buf a v } := by
  simp only [hostWriteBuf, if_pos ha, writeIfIdle, hb, Bool.false_eq_true, if_false]

/-- Settles O34, by the memory's read-after-write law. -/
theorem bufferPortWritesOneByte : Obligations.BufferPortWritesOneByte := by
  intro s a v hb ha
  refine ⟨_, hostWriteBuf_of_idle hb ha v, rfl, fun b => ?_⟩
  simp only [Memory.read_write, eq_comm (a := a)]

theorem hostReadBuf_notes {s : State} {a : Nat} (ha : a < s.cfg.bufCap) :
    notes (hostReadBuf a s) s (.buf a (bufSeen a s)) :=
  ⟨_, if_pos ha, rfl, rfl⟩

theorem hostReadPay_notes {s : State} {i : Nat} (hi : i < s.cfg.payloadCap) :
    notes (hostReadPay i s) s (.pay i (paySeen i s)) :=
  ⟨_, if_pos hi, rfl, rfl⟩

theorem bufSeen_eq_getD {s : State} {a : Nat} {o : Option Byte} (h : Memory.read s.buf a = o) :
    bufSeen a s = o.getD (Config.freeByte s.freeCount) := by
  rw [bufSeen, h]

theorem paySeen_of_idle {s : State} {i : Nat} {o : Option Byte} (hb : s.busy = false)
    (h : Memory.read s.payload i = o) : paySeen i s = o.getD (Config.freeByte s.freeCount) := by
  simp only [paySeen, hb, h, Bool.false_eq_true, if_false]

/-- Settles O37: each port notes the byte it sees, the written one or a free value. -/
theorem portReadsWhileIdle : Obligations.PortReadsWhileIdle := by
  intro s a hb
  refine ⟨fun ha => ?_, fun ha => ?_⟩
  · have key : ∀ o, Memory.read s.buf a = o → notes (hostReadBuf a s) s (.buf a (o.getD (Config.freeByte s.freeCount))) :=
      fun o ho => bufSeen_eq_getD ho ▸ hostReadBuf_notes ha
    exact ⟨fun b => key (some b), key none⟩
  · have key : ∀ o, Memory.read s.payload a = o →
        notes (hostReadPay a s) s (.pay a (o.getD (Config.freeByte s.freeCount))) :=
      fun o ho => paySeen_of_idle hb ho ▸ hostReadPay_notes ha
    exact ⟨fun b => key (some b), key none⟩

/-! ### Accesses outside the ports and the window -/

theorem offsetOk_eq_false {off : Nat} (h : off % 8 ≠ 0 ∨ 0xF8 < off) : offsetOk off = false :=
  decide_eq_false (by omega)

/-- Settles O38: each access checks its index or offset before anything else, in every phase (log 21). -/
theorem illFormedAccessesRefused : Obligations.IllFormedAccessesRefused := by
  intro s w v a
  refine ⟨fun ha => ?_, fun ha => if_neg (Nat.not_lt.2 ha), fun ha => ?_⟩
  · exact ⟨if_neg (Nat.not_lt.2 ha), if_neg (Nat.not_lt.2 ha)⟩
  · have hoff := ne_true_of_eq_false (offsetOk_eq_false ha)
    exact ⟨if_neg hoff, if_neg hoff⟩

end Sys2Proof.Machine
end

section
/-! The encoding (R101 to R104): a word is its two fields, each instruction has one opcode, so the decoder answers an
instruction on its own word alone; and what an illegal word does (R103, R221, R222). -/

namespace Sys2Proof

open Sys2Proof.Claims

/-! ### A word by its fields (R101) -/

theorem word_eq_append (w : Word) : w = rsvdField w ++ opcField w := by
  apply BitVec.eq_of_toNat_eq
  simp only [rsvdField, opcField, BitVec.toNat_append, BitVec.extractLsb'_toNat]
  rw [← Nat.shiftLeft_add_eq_or_of_lt (Nat.mod_lt _ (by decide))]
  have hlt := w.isLt
  simp only [Nat.shiftLeft_eq, Nat.shiftRight_eq_div_pow]
  omega

theorem word_eq_iff {v w : Word} : v = w ↔ rsvdField v = rsvdField w ∧ opcField v = opcField w := by
  refine ⟨fun h => h ▸ ⟨rfl, rfl⟩, fun ⟨hrsvd, hopc⟩ => ?_⟩
  rw [word_eq_append v, word_eq_append w, hrsvd, hopc]

/-! ### The opcode of an instruction (R102) -/

/-- What the per-instruction laws of RoundTrip say, for every instruction. -/
theorem roundTrip (i : Instr) : Laws.RoundTrip.Statement i := by
  cases i with
  | readB => exact Laws.RoundTrip.readB
  | readBB => exact Laws.RoundTrip.readBB
  | read3B => exact Laws.RoundTrip.read3B
  | read4B => exact Laws.RoundTrip.read4B
  | readRC => exact Laws.RoundTrip.readRC
  | readRS => exact Laws.RoundTrip.readRS
  | readRL => exact Laws.RoundTrip.readRL
  | readRD => exact Laws.RoundTrip.readRD
  | readBS => exact Laws.RoundTrip.readBS
  | readBL => exact Laws.RoundTrip.readBL
  | readBD => exact Laws.RoundTrip.readBD
  | readDD => exact Laws.RoundTrip.readDD
  | readMC => exact Laws.RoundTrip.readMC
  | readUMC => exact Laws.RoundTrip.readUMC
  | readMS => exact Laws.RoundTrip.readMS
  | readTV => exact Laws.RoundTrip.readTV
  | readH => exact Laws.RoundTrip.readH
  | readH0 => exact Laws.RoundTrip.readH0

/-- No two opcodes select one instruction: each row of the decoder's map is the instruction's own opcode. -/
theorem opcode_of_decodeOpc {b : Byte} {i : Instr} (h : decodeOpc b = some i) : b = opcField (encode i) := by
  apply BitVec.eq_of_toNat_eq
  unfold decodeOpc at h
  split at h
  case h_19 => cases h
  all_goals cases h; assumption

theorem decodeOpc_eq_some {b : Byte} {i : Instr} : decodeOpc b = some i ↔ b = opcField (encode i) :=
  ⟨opcode_of_decodeOpc, fun h => h ▸ (roundTrip i).2⟩

/-- The statements' copy of R102 pairs each instruction with the OPC field of its word. -/
theorem opcodeMap_eq_map : opcodeMap = Instr.all.map fun i => (i, (opcField (encode i)).toNat) := by decide

theorem mem_opcodeMap {b : Byte} {i : Instr} : (i, b.toNat) ∈ opcodeMap ↔ b = opcField (encode i) := by
  rw [opcodeMap_eq_map, List.mem_map]
  constructor
  · rintro ⟨j, -, hpair⟩
    obtain ⟨rfl, hopc⟩ := Prod.mk.inj hpair
    exact (BitVec.eq_of_toNat_eq hopc).symm
  · rintro rfl
    exact ⟨i, i.mem_all, rfl⟩

/-! ### Decode and encode -/

/-- The decoder answers an instruction on its own word and on no other. -/
theorem decode_eq_ok_iff_eq_encode {w : Word} {i : Instr} : decode w = .ok i ↔ w = encode i := by
  rw [decode_eq_ok, decodeOpc_eq_some, word_eq_iff, (roundTrip i).1]

/-- Settles O2: both directions are the decoder's one characterisation. -/
theorem decodeEncodeAgree : Obligations.DecodeEncodeAgree :=
  fun _ _ => ⟨decode_eq_ok_iff_eq_encode.2 rfl, fun _ => decode_eq_ok_iff_eq_encode.1⟩

/-- Settles O1: the decoder's opcode map and the table of R102 both pair an instruction with its word's OPC field. -/
theorem commandWordsDecodeByTable : Obligations.CommandWordsDecodeByTable := by
  intro w i
  rw [decode_eq_ok, decodeOpc_eq_some, ← mem_opcodeMap]
  rfl

/-- Settles O3: four words of R102 by their round trip, one word a ground of R103 each. -/
theorem sampleWordsDecode : Obligations.SampleWordsDecode :=
  ⟨decode_eq_ok_iff_eq_encode.2 rfl, decode_eq_ok_iff_eq_encode.2 rfl, decode_eq_ok_iff_eq_encode.2 rfl,
    decode_eq_ok_iff_eq_encode.2 rfl, by decide, by decide⟩

/-! ### Illegal words (R103) -/

theorem not_decode_of_illegalWord {w : Word} (h : illegalWord w) (i : Instr) : decode w ≠ .ok i := by
  intro hdecode
  obtain ⟨hrsvd, hlisted⟩ := (commandWordsDecodeByTable w i).1 hdecode
  obtain hreserved | hunlisted := h
  · exact hreserved hrsvd
  · exact hunlisted i hlisted

end Sys2Proof

namespace Sys2Proof.Machine

open Sys2Proof.Claims

/-- CMD accepts a word unchecked while BUSY = 0 and FAULT = 0 (R221). -/
theorem hostWriteReg_cmd_of_idle {s : State} (hb : s.busy = false) (hf : s.fault = false) (w : Word) :
    hostWriteReg 0x00 w s = .next { s with pending := w, busy := true } := by
  have haccept : writeCmd w s = { s with pending := w, busy := true } := by
    simp only [writeCmd, hb, hf, Bool.or_self, Bool.false_eq_true, if_false]
  exact congrArg Host.Outcome.next haccept

/-- Where no turn is scheduled a pending command is the engine's to run (R222; log 5). -/
theorem step_of_busy {s : State} (hturns : s.turns = []) (hb : s.busy = true) : step s = engineStep s := by
  simp only [step, takeTurn, hturns, hb, if_true]

theorem engineStep_of_illegalWord {s : State} (h : illegalWord s.pending) :
    engineStep s = .next (s.afterFault 6 s.cursor.toNat 0) := by
  obtain ⟨e, he⟩ := decode_error_of_not_ok (not_decode_of_illegalWord h)
  simp only [engineStep, he, raiseFault_eq, Cause.code]

/-- Settles O22: acceptance does not look at the word, and the engine's step faults on it before any read. -/
theorem illegalWordsFault : Obligations.IllegalWordsFault := by
  intro s w hw
  refine ⟨fun hb hf => hostWriteReg_cmd_of_idle hb hf w, fun hpending hb hturns => ?_⟩
  subst hpending
  rw [step_of_busy hturns hb, engineStep_of_illegalWord hw]

end Sys2Proof.Machine
end

section
/-! Host programs (R112, R113): where a program's poll labels stand, and one turn of the host at each statement. -/

namespace Sys2Proof.Machine

/-! ### The expansion of a program (R113) -/

/-- Line j of a program takes the label number `n + j`. -/
theorem expandFrom_eq_flatMap (n : Nat) (ls : List HostLine) :
    expandFrom n ls = (ls.zipIdx n).flatMap fun l => expandLine l.2 l.1 := by
  induction ls generalizing n with
  | nil => rfl
  | cons l ls ih => rw [expandFrom, ih, List.zipIdx_cons, List.flatMap_cons]

/-! ### Poll labels -/

theorem label_not_mem_loadStmts (l : Label) (a : Nat) (bs : List Byte) : HostStmt.label l ∉ loadStmts a bs := by
  induction bs generalizing a with
  | nil => exact List.not_mem_nil
  | cons b bs ih => simpa [loadStmts] using ih (a + 1)

/-- One line holds a label at most once. -/
theorem count_label_expandLine_le_one (l : Label) (n : Nat) (line : HostLine) :
    (expandLine n line).count (.label l) ≤ 1 := by
  have hpoll : (pollStmts n).count (.label l) ≤ 1 := by
    have hrest : [HostStmt.rd offStatus, .jbusy (.poll n)].count (.label l) = 0 := List.count_eq_zero.2 (by simp)
    rw [pollStmts, List.count_cons, hrest]
    split <;> simp
  cases line with
  | stmt h => exact List.count_le_length
  | poll => exact hpoll
  | run i => simpa [expandLine] using hpoll
  | load a bs => exact (List.count_eq_zero.2 (label_not_mem_loadStmts l a bs)).trans_le (Nat.zero_le 1)
  | clrf | clrd | bare => exact List.count_le_length
  | setup len pos => simp [expandLine]

/-- The poll labels from line `n` on are numbered from `n`, where no line is such a label itself. -/
theorem le_of_pollLabel_mem_expandFrom {n m : Nat} {ls : List HostLine} (hown : .stmt (.label (.poll m)) ∉ ls)
    (h : .label (.poll m) ∈ expandFrom n ls) : n ≤ m := by
  induction ls generalizing n with
  | nil => cases h
  | cons line ls ih =>
    obtain ⟨hline, hrest⟩ := not_or.1 (mt List.mem_cons.2 hown)
    obtain hfirst | hlater := List.mem_append.1 h
    · obtain rfl | rfl := label_mem_expandLine hfirst
      · exact le_refl m
      · exact absurd rfl hline
    · exact Nat.le_of_succ_le (ih hrest hlater)

/-- A poll label stands at most once: in its own line, or in one of the lines after it. -/
theorem count_pollLabel_expandFrom_le_one {n m : Nat} {ls : List HostLine} (hown : .stmt (.label (.poll m)) ∉ ls) :
    (expandFrom n ls).count (.label (.poll m)) ≤ 1 := by
  induction ls generalizing n with
  | nil => exact Nat.zero_le 1
  | cons line ls ih =>
    obtain ⟨hline, hrest⟩ := not_or.1 (mt List.mem_cons.2 hown)
    rw [expandFrom, List.count_append]
    by_cases hn : m = n
    · have hlater : (expandFrom (n + 1) ls).count (.label (.poll m)) = 0 :=
        List.count_eq_zero.2 fun hmem => by
          have hle := le_of_pollLabel_mem_expandFrom hrest hmem
          omega
      rw [hlater]
      exact count_label_expandLine_le_one _ n line
    · have hfirst : (expandLine n line).count (.label (.poll m)) = 0 :=
        List.count_eq_zero.2 fun hmem => (label_mem_expandLine hmem).elim hn fun heq => hline heq.symm
      rw [hfirst, Nat.zero_add]
      exact ih hrest

/-- What stands at most once in a list stands at one place. -/
theorem getElem?_inj_of_count_le_one {α : Type} [DecidableEq α] {l : List α} {x : α} (h : l.count x ≤ 1) {p q : Nat}
    (hp : l[p]? = some x) (hq : l[q]? = some x) : p = q := by
  by_contra hne
  wlog hlt : p < q generalizing p q
  · exact this hq hp (Ne.symm hne) (by omega)
  obtain ⟨hpl, hpx⟩ := List.getElem?_eq_some_iff.1 hp
  obtain ⟨hql, hqx⟩ := List.getElem?_eq_some_iff.1 hq
  have htwice : l.Duplicate x :=
    List.duplicate_iff_exists_distinct_get.2 ⟨⟨p, hpl⟩, ⟨q, hql⟩, hlt, hpx.symm, hqx.symm⟩
  exact absurd (List.duplicate_iff_two_le_count.1 htwice) (by omega)

/-- Settles O46: the expansions by definition, the numbers by induction on the lines, the place of a label by its count. -/
theorem pseudoStatementsExpand : Obligations.PseudoStatementsExpand := by
  refine ⟨fun n i a b bs len pos h => ⟨rfl, rfl, rfl, rfl, rfl, rfl, rfl, rfl, rfl⟩, expandFrom_eq_flatMap, fun _ => rfl,
    fun ls p q m hown hp hq => ?_⟩
  exact getElem?_inj_of_count_le_one (count_pollLabel_expandFrom_le_one (hown m)) hp hq

/-! ### An access leaves the host where it stands (R112) -/

theorem writeIfIdle_host {s t : State} (h : t.host = s.host) : (writeIfIdle s t).host = s.host := by
  unfold writeIfIdle
  split
  · exact dropWrite_host s
  · exact h

theorem writeReg_host (off : Nat) (w : Word) (s : State) : (writeReg off w s).host = s.host := by
  unfold writeReg
  split
  · unfold writeCmd
    split
    · exact dropWrite_host s
    · rfl
  · exact writeStatus_host w s
  · exact writeIfIdle_host rfl
  · unfold writeBuflen
    split
    · exact dropWrite_host s
    · exact writeIfIdle_host rfl
  · exact writeIfIdle_host rfl
  · rfl

theorem hostWriteReg_pos {off : Nat} {w : Word} {s t : State} (h : hostWriteReg off w s = .next t) :
    t.host.pos = s.host.pos := by
  unfold hostWriteReg at h
  split at h <;> cases h
  exact congrArg HostAgent.pos (writeReg_host off w s)

theorem hostWriteBuf_pos {a : Nat} {v : Byte} {s t : State} (h : hostWriteBuf a v s = .next t) :
    t.host.pos = s.host.pos := by
  unfold hostWriteBuf at h
  split at h <;> cases h
  exact congrArg HostAgent.pos (writeIfIdle_host rfl)

theorem hostReadBuf_pos {a : Nat} {s t : State} (h : hostReadBuf a s = .next t) : t.host.pos = s.host.pos := by
  unfold hostReadBuf at h
  split at h <;> cases h
  rfl

theorem hostReadPay_pos {a : Nat} {s t : State} (h : hostReadPay a s = .next t) : t.host.pos = s.host.pos := by
  unfold hostReadPay at h
  split at h <;> cases h
  rfl

/-- A register read that completes leaves the host's place, and remembers the value where it is STATUS that it read. -/
theorem hostReadReg_host {off : Nat} {s t : State} (h : hostReadReg off s = .next t) :
    t.host.pos = s.host.pos ∧ t.host.lastStatus = lastStatusAfter off (regSeen off s) s.host.lastStatus := by
  unfold hostReadReg at h
  split at h <;> cases h
  exact ⟨rfl, rfl⟩

/-- STATUS is no register of the engine's: a read shows it in every phase (R256). -/
theorem regSeen_status (s : State) : regSeen 0x08 s = statusWord s := by
  simp only [regSeen, engineOwned, Bool.and_false, Bool.false_eq_true, if_false, regValue]

/-! ### One turn of the host at each statement (R112) -/

theorem hostTurn_eq_hostStmt {s : State} {h : HostStmt} (hat : s.host.prog[s.host.pos]? = some h) :
    hostTurn s = hostStmt h s := by
  simp only [hostTurn, hat]

/-- After an access that leaves the host's place, the host goes on at the next statement. -/
theorem thenAdvance_of_next {x : Host.Outcome State Fault Refusal} {s t : State} (hx : x = .next t)
    (hpos : t.host.pos = s.host.pos) :
    thenAdvance x = .next { t with host := { t.host with pos := s.host.pos + 1 } } := by
  rw [hx, ← hpos]
  rfl

/-- A jump goes to the first place of its label (log 8). -/
theorem hostJump_first {l : Label} {s : State} {p : Nat} (hp : s.host.prog[p]? = some (.label l))
    (hfirst : ∀ q, q < p → s.host.prog[q]? ≠ some (.label l)) :
    hostJump l s = .next { s with host := { s.host with pos := p } } := by
  simp only [hostJump, labelIndex_eq_some l _ p hp hfirst, hostGoto]

theorem lastStatusBit_of_some {s : State} {w : Word} (h : s.host.lastStatus = some w) (b : Nat) :
    lastStatusBit b s = w.getLsbD b := by
  simp only [lastStatusBit, h]

/-- `jbusy` tests bit 0 of the last `rd STATUS`, `jfault` bit 1. -/
theorem hostStmt_condJump {h : HostStmt} {l : Label} {b : Nat} (hjump : h = .jbusy l ∧ b = 0 ∨ h = .jfault l ∧ b = 1)
    (s : State) : hostStmt h s = if lastStatusBit b s then hostJump l s else thenAdvance (.next s) := by
  obtain ⟨rfl, rfl⟩ | ⟨rfl, rfl⟩ := hjump <;> rfl

/-- Settles O45, one statement of R112 after another. -/
theorem hostStatements : Obligations.HostStatements := by
  intro s h hat
  rw [hostTurn_eq_hostStmt hat]
  refine ⟨?wr, ?rd, ?wb, ?rb, ?rp, ?label, ?condJump, ?jmp, ?halt⟩
  case wr => rintro off v t rfl ht; exact thenAdvance_of_next ht (hostWriteReg_pos ht)
  case rd =>
    rintro off t rfl ht
    obtain ⟨hpos, hstatus⟩ := hostReadReg_host ht
    refine ⟨thenAdvance_of_next ht hpos, ?_, fun hoff => hstatus.trans (if_neg hoff)⟩
    rintro rfl
    exact hstatus.trans (congrArg some (regSeen_status s))
  case wb => rintro a v t rfl ht; exact thenAdvance_of_next ht (hostWriteBuf_pos ht)
  case rb => rintro a t rfl ht; exact thenAdvance_of_next ht (hostReadBuf_pos ht)
  case rp => rintro a t rfl ht; exact thenAdvance_of_next ht (hostReadPay_pos ht)
  case label => rintro l rfl; rfl
  case condJump =>
    intro l b hjump
    rw [hostStmt_condJump hjump]
    refine ⟨fun w p hlast hbit hp hfirst => ?taken, fun w hlast hbit => ?notTaken⟩
    case taken => rw [lastStatusBit_of_some hlast, if_pos hbit, hostJump_first hp hfirst]
    case notTaken => rw [lastStatusBit_of_some hlast, hbit]; rfl
  case jmp => rintro l p rfl hp hfirst; exact hostJump_first hp hfirst
  case halt => rintro rfl; rfl

end Sys2Proof.Machine
end

section
/-! The fixed-width readers (spec/40_fixed_width.md): the one shape every scalar command has, the field readers, the raw
readers, and the bytes of a number standing in the stream. -/

namespace Sys2Proof.Machine

/-! ### A command that stages one scalar (R223, R224) -/

theorem endCommand_scalar_of_ok {α : Type} {s : State} {x : Got α} {v : α} {n : Nat} (h : x = .ok v (s.cursor.toNat + n))
    (f : α → Word) : endCommand s (x.bind fun v c => .ok (.scalar (f v)) c) = .next (s.afterScalar (f v) n) := by
  rw [h, Got.bind_ok, endCommand_ok, commit_scalar]

theorem endCommand_bind_of_raise {α : Type} {s : State} {x : Got α} {k : Cause} {p d : Nat} (h : x = .raise k p d)
    (f : α → Nat → Got Staged) : endCommand s (x.bind f) = .next (s.afterFault k.code p d) := by
  rw [h, Got.bind_raise, endCommand_raise, raiseFault_eq]

/-! ### The field readers (R141 to R145) -/

/-- The commands that read one field, with the width of the field. -/
def fieldReaders : List (Instr × Nat) := [(.readB, 1), (.readBB, 2), (.read3B, 3), (.read4B, 4), (.readRC, 8)]

theorem exec_of_mem_fieldReaders {i : Instr} {n : Nat} (h : (i, n) ∈ fieldReaders) (s : State) :
    exec i s = fieldCommand s n := by
  simp only [fieldReaders, List.mem_cons, List.not_mem_nil, or_false, Prod.mk.injEq] at h
  obtain ⟨rfl, rfl⟩ | ⟨rfl, rfl⟩ | ⟨rfl, rfl⟩ | ⟨rfl, rfl⟩ | ⟨rfl, rfl⟩ := h <;> rfl

theorem fieldCommand_of_streamField {s : State} {n v : Nat} (h : s.streamField s.cursor.toNat n v) :
    fieldCommand s n = .next (s.afterScalar (BitVec.ofNat 64 v) n) :=
  endCommand_scalar_of_ok (readField_of_streamField h) zext64

theorem fieldCommand_of_not_inStream {s : State} {n : Nat} (h : ¬s.inStream s.cursor.toNat n) :
    fieldCommand s n = .next (s.afterFault 1 s.cursor.toNat 0) :=
  endCommand_bind_of_raise (readField_of_not_inStream h) _

/-- Settles O6: each of the five commands is the field command of its width. -/
theorem fieldReadersReturnTheirField : Obligations.FieldReadersReturnTheirField := by
  intro i n w hlisted
  change (i, n, w) ∈ fieldReaders.map fun r => (r.1, r.2, encode r.1) at hlisted
  obtain ⟨r, hreader, ⟨⟩⟩ := List.mem_map.1 hlisted
  refine ⟨decode_eq_ok_iff_eq_encode.2 rfl, fun s v => ?_⟩
  rw [exec_of_mem_fieldReaders hreader]
  exact ⟨fun hfield => ⟨State.streamField_lt hfield, fieldCommand_of_streamField hfield⟩, fieldCommand_of_not_inStream⟩

/-! ### The raw readers (R146 to R148) -/

/-- The shared shape of R146 to R148: a run of n bytes, assembled by `f`. -/
def bytesCommand (s : State) (n : Nat) (f : List Byte → Word) : Host.Outcome State Fault Refusal :=
  endCommand s ((readBytes s s.cursor.toNat n).bind fun r c => .ok (.scalar (f r)) c)

theorem exec_readRS (s : State) :
    exec .readRS s = bytesCommand s 2 fun r => (BitVec.ofNat 16 (leValue r)).signExtend 64 := rfl

theorem exec_readRL (s : State) :
    exec .readRL s = bytesCommand s 4 fun r => (BitVec.ofNat 32 (leValue r)).signExtend 64 := rfl

theorem exec_readRD (s : State) : exec .readRD s = bytesCommand s 8 fun r => BitVec.ofNat 64 (leValue r) := rfl

theorem bytesCommand_of_streamBytes {s : State} {n : Nat} {r : List Byte} (hn : r.length = n)
    (h : s.streamBytes s.cursor.toNat r) (f : List Byte → Word) :
    bytesCommand s n f = .next (s.afterScalar (f r) (8 * n)) := by
  subst hn
  exact endCommand_scalar_of_ok (readBytes_of_streamBytes h) f

theorem bytesCommand_of_not_inStream {s : State} {n : Nat} (hn : n ≠ 0) (h : ¬s.inStream s.cursor.toNat (8 * n))
    (f : List Byte → Word) : bytesCommand s n f = .next (s.afterFault 1 s.cursor.toNat 0) :=
  endCommand_bind_of_raise (readBytes_of_not_inStream hn h) _

/-- Settles O7: each raw reader is the bytes command of its length, and its value is the bytes in reverse order. -/
theorem rawReadersAreLittleEndian : Obligations.RawReadersAreLittleEndian := by
  refine ⟨decode_eq_ok_iff_eq_encode.2 rfl, decode_eq_ok_iff_eq_encode.2 rfl, decode_eq_ok_iff_eq_encode.2 rfl,
    fun s b0 b1 b2 b3 b4 b5 b6 b7 => ?_⟩
  rw [exec_readRS, exec_readRL, exec_readRD, ← ofNat_leValue_two, ← ofNat_leValue_four, ← ofNat_leValue_eight]
  exact ⟨fun h => bytesCommand_of_streamBytes rfl h _, fun h => bytesCommand_of_not_inStream (by decide) h _,
    fun h => bytesCommand_of_streamBytes rfl h _, fun h => bytesCommand_of_not_inStream (by decide) h _,
    fun h => bytesCommand_of_streamBytes rfl h _, fun h => bytesCommand_of_not_inStream (by decide) h _⟩

/-! ### A number whose bits stand in the stream (R149) -/

theorem field_of_bits {m : Memory} {p n : Nat} (v : BitVec n)
    (h : ∀ k, k < n → streamBit m (p + k) = some (v.getLsbD (n - 1 - k)).toNat) : field m p n = some v.toNat := by
  have hwindow : field m p n = some ((v.toNat >>> (n - n)) % 2 ^ n) := field_of_window (le_refl n) h
  rwa [Nat.sub_self, Nat.shiftRight_zero, Nat.mod_eq_of_lt v.isLt] at hwindow

/-- The low n bytes of a number, least significant first. -/
def leBytes {w : Nat} (v : BitVec w) (n : Nat) : List Byte := (List.range n).map fun k => v.extractLsb' (8 * k) 8

theorem length_leBytes {w : Nat} (v : BitVec w) (n : Nat) : (leBytes v n).length = n := by simp [leBytes]

theorem leBytes_succ {w : Nat} (v : BitVec w) (n : Nat) : leBytes v (n + 1) = leBytes v n ++ [v.extractLsb' (8 * n) 8] := by
  simp [leBytes, List.range_succ]

theorem leValue_append (r q : List Byte) : leValue (r ++ q) = leValue r + 256 ^ r.length * leValue q := by
  induction r with
  | nil => simp [leValue]
  | cons b r ih => simp only [List.cons_append, leValue, ih, List.length_cons]; ring

/-- The bytes of a number are its digits to base 256. -/
theorem leValue_leBytes {w : Nat} (v : BitVec w) (n : Nat) : leValue (leBytes v n) = v.toNat % 256 ^ n := by
  induction n with
  | zero => simp [leBytes, leValue, Nat.mod_one]
  | succ n ih =>
    have hdigit : leValue [v.extractLsb' (8 * n) 8] = v.toNat / 256 ^ n % 256 := by
      simp only [leValue, BitVec.extractLsb'_toNat, Nat.shiftRight_eq_div_pow, Nat.pow_mul]
      rfl
    rw [leBytes_succ, leValue_append, ih, length_leBytes, hdigit, Nat.mod_pow_succ]

/-- Bytes enough to hold a number assemble to it. -/
theorem ofNat_leValue_leBytes {w : Nat} (v : BitVec w) (n : Nat) (hw : w ≤ 8 * n) :
    BitVec.ofNat w (leValue (leBytes v n)) = v := by
  have hlt : v.toNat < 256 ^ n :=
    calc v.toNat < 2 ^ w := v.isLt
      _ ≤ 2 ^ (8 * n) := Nat.pow_le_pow_right (by decide) hw
      _ = 256 ^ n := Nat.pow_mul 2 8 n
  rw [leValue_leBytes, Nat.mod_eq_of_lt hlt, BitVec.ofNat_toNat, BitVec.setWidth_eq]

/-- Where the stream shows the bits of v byte by byte, least significant byte first, the bytes of v stand in it. -/
theorem streamBytes_leBytes {s : State} {p w n : Nat} (v : BitVec w) (hin : s.inStream p (8 * n))
    (hbits : ∀ k j, k < n → j < 8 → streamBit s.buf (p + 8 * k + j) = some (v.getLsbD (8 * k + (7 - j))).toNat) :
    s.streamBytes p (leBytes v n) := by
  refine ⟨by rwa [length_leBytes], fun k hk => ?_⟩
  rw [length_leBytes] at hk
  have hbyte : field s.buf (p + 8 * k) 8 = some (v.extractLsb' (8 * k) 8).toNat :=
    field_of_bits _ fun j hj => by
      have hpos : 7 - j < 8 := by omega
      rw [hbits k j hk hj, BitVec.getLsbD_extractLsb', decide_eq_true hpos, Bool.true_and]
  simpa [leBytes] using hbyte

theorem bytesCommand_of_bits {s : State} {w n : Nat} (v : BitVec w) (hin : s.inStream s.cursor.toNat (8 * n))
    (hbits : ∀ k j, k < n → j < 8 →
      streamBit s.buf (s.cursor.toNat + 8 * k + j) = some (v.getLsbD (8 * k + (7 - j))).toNat)
    (f : List Byte → Word) : bytesCommand s n f = .next (s.afterScalar (f (leBytes v n)) (8 * n)) :=
  bytesCommand_of_streamBytes (length_leBytes v n) (streamBytes_leBytes v hin hbits) f

/-- Settles O8: the stream holds v as the field, or v's bytes as the run, that the reader of its width reads. -/
theorem fixedWidthRoundTrip : Obligations.FixedWidthRoundTrip := by
  refine ⟨fun i n hreader s v hin hbits => ?field, fun s v hin hbits => ?short, fun s v hin hbits => ?long,
    fun s v hin hbits => ?double⟩
  case field =>
    rw [exec_of_mem_fieldReaders hreader, ← BitVec.ofNat_toNat]
    exact fieldCommand_of_streamField ⟨hin, field_of_bits v hbits⟩
  case short => rw [exec_readRS, bytesCommand_of_bits v hin hbits, ofNat_leValue_leBytes v 2 (by decide)]
  case long => rw [exec_readRL, bytesCommand_of_bits v hin hbits, ofNat_leValue_leBytes v 4 (by decide)]
  case double => rw [exec_readRD, bytesCommand_of_bits v hin hbits, ofNat_leValue_leBytes v 8 (by decide)]

end Sys2Proof.Machine
end

section
/-! The bit-short, the bit-long and the bit-double (spec/41_prefix_coded.md): the 2-bit code and the body after it, and the
value each code stands for. -/

namespace Sys2Proof.Machine

open Sys2Proof.Claims

/-! ### The 2-bit code and the body after it (R160) -/

theorem readPrefix_bind_of_streamField {α : Type} {s : State} {c p : Nat} (h : s.streamField c 2 p)
    (f : Nat → Nat → Got α) : (readPrefix s c).bind f = f p (c + 2) := by
  rw [readPrefix, readField_of_streamField h, Got.bind_ok]

theorem readPrefix_bind_of_not_inStream {α : Type} {s : State} {c : Nat} (h : ¬s.inStream c 2)
    (f : Nat → Nat → Got α) : (readPrefix s c).bind f = .raise .outOfBounds c 0 := by
  rw [readPrefix, readField_of_not_inStream h, Got.bind_raise]

theorem bytesBody_of_streamBytes {α : Type} {s : State} {c n : Nat} {r : List Byte} (hn : r.length = n)
    (h : s.streamBytes c r) (f : List Byte → α) :
    ((readBytes s c n).bind fun r c => .ok (f r) c) = .ok (f r) (c + 8 * n) := by
  subst hn
  rw [readBytes_of_streamBytes h, Got.bind_ok]

theorem bytesBody_of_not_inStream {α : Type} {s : State} {c n : Nat} (hn : n ≠ 0) (h : ¬s.inStream c (8 * n))
    (f : List Byte → α) : ((readBytes s c n).bind fun r c => .ok (f r) c) = .raise .outOfBounds c 0 := by
  rw [readBytes_of_not_inStream hn h, Got.bind_raise]

theorem byteBody_of_streamBytes {α : Type} {s : State} {c : Nat} {b : Byte} (h : s.streamBytes c [b]) (f : Byte → α) :
    ((readField s c 8).bind fun v c => .ok (f (BitVec.ofNat 8 v)) c) = .ok (f b) (c + 8) := by
  rw [readField_of_streamField (State.streamBytes_one h), Got.bind_ok, BitVec.ofNat_toNat, BitVec.setWidth_eq]

theorem byteBody_of_not_inStream {α : Type} {s : State} {c : Nat} (h : ¬s.inStream c 8) (f : Byte → α) :
    ((readField s c 8).bind fun v c => .ok (f (BitVec.ofNat 8 v)) c) = .raise .outOfBounds c 0 := by
  rw [readField_of_not_inStream h, Got.bind_raise]

/-- Widening the body to a register gives the same word through any width above 8 (R12, R37). -/
theorem signExtend_widenBody {w : Nat} (hw : 8 < w) (hw64 : w ≤ 64) (e : Code1Ext) (b : Byte) :
    (widenBody e w b).signExtend 64 = bodyWord e b := by
  cases e with
  | zero =>
    have hmsb : (b.setWidth w).msb = false := by
      rw [BitVec.msb_setWidth, BitVec.getLsbD_of_ge b (w - 1) (by omega), Bool.and_false]
    apply BitVec.eq_of_toNat_eq
    simp only [widenBody, bodyWord]
    rw [BitVec.signExtend_eq_setWidth_of_msb_false hmsb, BitVec.toNat_setWidth_of_le hw64,
      BitVec.toNat_setWidth_of_le hw.le, BitVec.toNat_setWidth_of_le (by decide)]
  | sign =>
    apply BitVec.eq_of_toInt_eq
    simp only [widenBody, bodyWord]
    rw [BitVec.toInt_signExtend_of_le hw64, BitVec.toInt_signExtend_of_le hw.le,
      BitVec.toInt_signExtend_of_le (by decide)]

/-! ### The bit-short (R161) -/

/-- A bit-short that stands in the stream is the value its code stands for. -/
theorem bitShortValue_of_bitShortAt {s : State} {c l n : Nat} (h : bitShortAt s c l n) :
    bitShortValue s c = .ok (BitVec.ofNat 16 l) (c + n) := by
  obtain ⟨b0, b1, hcode, hbody, rfl, rfl⟩ | ⟨b, hcode, hbody, rfl, rfl⟩ | ⟨hcode, rfl, rfl⟩ | ⟨hcode, rfl, rfl⟩ := h
  · rw [BitVec.ofNat_toNat, BitVec.setWidth_eq, ← ofNat_leValue_two]
    exact (readPrefix_bind_of_streamField hcode _).trans (bytesBody_of_streamBytes rfl hbody _)
  · rw [BitVec.ofNat_toNat, BitVec.setWidth_eq]
    exact (readPrefix_bind_of_streamField hcode _).trans (byteBody_of_streamBytes hbody _)
  · exact readPrefix_bind_of_streamField hcode _
  · exact readPrefix_bind_of_streamField hcode _

/-- A bit-short that the stream's end cuts off faults where the failing read begins. -/
theorem bitShortValue_of_bitShortCut {s : State} {c pos : Nat} (h : bitShortCut s c pos) :
    bitShortValue s c = .raise .outOfBounds pos 0 := by
  obtain ⟨hcut, rfl⟩ | ⟨hcode, hcut, rfl⟩ | ⟨hcode, hcut, rfl⟩ := h
  · exact readPrefix_bind_of_not_inStream hcut _
  · exact (readPrefix_bind_of_streamField hcode _).trans (bytesBody_of_not_inStream (by decide) hcut _)
  · exact (readPrefix_bind_of_streamField hcode _).trans (byteBody_of_not_inStream hcut _)

theorem exec_readBS_of_bitShortAt {s : State} {v : BitVec 16} {n : Nat} (h : bitShortAt s s.cursor.toNat v.toNat n) :
    exec .readBS s = .next (s.afterScalar (v.signExtend 64) n) := by
  have hvalue := bitShortValue_of_bitShortAt h
  rw [BitVec.ofNat_toNat, BitVec.setWidth_eq] at hvalue
  exact endCommand_scalar_of_ok hvalue fun v => v.signExtend 64

theorem exec_readBS_of_bitShortCut {s : State} {pos : Nat} (h : bitShortCut s s.cursor.toNat pos) :
    exec .readBS s = .next (s.afterFault 1 pos 0) :=
  endCommand_bind_of_raise (bitShortValue_of_bitShortCut h) _

/-- Settles O9: every clause but the cuts is a bit-short that stands at the cursor, and each cut a
bit-short cut off. -/
theorem bitShortByPrefix : Obligations.BitShortByPrefix := by
  refine ⟨decode_eq_ok_iff_eq_encode.2 rfl, fun s b0 b1 => ?_⟩
  rw [← signExtend_widenBody (w := 16) (by decide) (by decide)]
  refine ⟨fun hcut => ?noPrefix, fun hcode => ⟨fun hbody => ?code0, fun hcut => ?code0Cut⟩,
    fun hcode => ⟨fun hbody => ?code1, fun hcut => ?code1Cut⟩, fun hcode => ?code2, fun hcode => ?code3⟩
  case noPrefix => exact exec_readBS_of_bitShortCut (.inl ⟨hcut, rfl⟩)
  case code0 => exact exec_readBS_of_bitShortAt (.inl ⟨b0, b1, hcode, hbody, rfl, rfl⟩)
  case code0Cut => exact exec_readBS_of_bitShortCut (.inr (.inl ⟨hcode, hcut, rfl⟩))
  case code1 => exact exec_readBS_of_bitShortAt (.inr (.inl ⟨b0, hcode, hbody, rfl, rfl⟩))
  case code1Cut => exact exec_readBS_of_bitShortCut (.inr (.inr ⟨hcode, hcut, rfl⟩))
  case code2 => exact exec_readBS_of_bitShortAt (v := 0) (.inr (.inr (.inl ⟨hcode, rfl, rfl⟩)))
  case code3 => exact exec_readBS_of_bitShortAt (v := 256) (.inr (.inr (.inr ⟨hcode, rfl, rfl⟩)))

/-! ### A command whose code has been read, with its body still to read -/

/-- A body of n bytes: the command commits their value, or faults where the body begins (R78). -/
theorem endCommand_bytesBody {α : Type} {s : State} {n : Nat} {r : List Byte} (hr : r.length = n) (hn : n ≠ 0)
    (f : List Byte → α) (g : α → Word) :
    (s.streamBytes (s.cursor.toNat + 2) r →
      endCommand s (((readBytes s (s.cursor.toNat + 2) n).bind fun r c => .ok (f r) c).bind
        fun v c => .ok (.scalar (g v)) c) = .next (s.afterScalar (g (f r)) (2 + 8 * n))) ∧
    (¬s.inStream (s.cursor.toNat + 2) (8 * n) →
      endCommand s (((readBytes s (s.cursor.toNat + 2) n).bind fun r c => .ok (f r) c).bind
        fun v c => .ok (.scalar (g v)) c) = .next (s.afterFault 1 (s.cursor.toNat + 2) 0)) := by
  refine ⟨fun hbody => ?_, fun hcut => endCommand_bind_of_raise (bytesBody_of_not_inStream hn hcut f) _⟩
  have hread := bytesBody_of_streamBytes hr hbody f
  rw [Nat.add_assoc] at hread
  exact endCommand_scalar_of_ok hread g

/-- A body of one byte, read as a field of 8 bits: the command commits its value, or faults where the body begins (R77). -/
theorem endCommand_byteBody {α : Type} {s : State} {b : Byte} (f : Byte → α) (g : α → Word) :
    (s.streamBytes (s.cursor.toNat + 2) [b] →
      endCommand s (((readField s (s.cursor.toNat + 2) 8).bind fun v c => .ok (f (BitVec.ofNat 8 v)) c).bind
        fun v c => .ok (.scalar (g v)) c) = .next (s.afterScalar (g (f b)) 10)) ∧
    (¬s.inStream (s.cursor.toNat + 2) 8 →
      endCommand s (((readField s (s.cursor.toNat + 2) 8).bind fun v c => .ok (f (BitVec.ofNat 8 v)) c).bind
        fun v c => .ok (.scalar (g v)) c) = .next (s.afterFault 1 (s.cursor.toNat + 2) 0)) :=
  ⟨fun hbody => endCommand_scalar_of_ok (byteBody_of_streamBytes hbody f) g,
    fun hcut => endCommand_bind_of_raise (byteBody_of_not_inStream hcut f) _⟩

/-! ### The bit-long (R162) -/

theorem exec_readBL (s : State) :
    exec .readBL s =
      endCommand s ((bitLongValue s s.cursor.toNat).bind fun v c => .ok (.scalar (v.signExtend 64)) c) := rfl

theorem bitLongValue_code0 {s : State} {c : Nat} (h : s.streamField c 2 0) :
    bitLongValue s c = (readBytes s (c + 2) 4).bind fun r c => .ok (BitVec.ofNat 32 (leValue r)) c :=
  readPrefix_bind_of_streamField h _

theorem bitLongValue_code1 {s : State} {c : Nat} (h : s.streamField c 2 1) :
    bitLongValue s c =
      (readField s (c + 2) 8).bind fun b c => .ok (widenBody s.cfg.code1Ext 32 (BitVec.ofNat 8 b)) c :=
  readPrefix_bind_of_streamField h _

theorem bitLongValue_code2 {s : State} {c : Nat} (h : s.streamField c 2 2) : bitLongValue s c = .ok 0 (c + 2) :=
  readPrefix_bind_of_streamField h _

theorem bitLongValue_code3 {s : State} {c : Nat} (h : s.streamField c 2 3) :
    bitLongValue s c = .raise .malformedPrefix c 3 :=
  readPrefix_bind_of_streamField h _

/-- Settles O10, one code after another. -/
theorem bitLongByPrefix : Obligations.BitLongByPrefix := by
  refine ⟨decode_eq_ok_iff_eq_encode.2 rfl, fun s b0 b1 b2 b3 => ?_⟩
  rw [exec_readBL, ← ofNat_leValue_four, ← signExtend_widenBody (w := 32) (by decide) (by decide)]
  refine ⟨fun hcut => ?noPrefix, fun hcode => ?code0, fun hcode => ?code1, fun hcode => ?code2, fun hcode => ?code3⟩
  case noPrefix => exact endCommand_bind_of_raise (readPrefix_bind_of_not_inStream hcut _) _
  case code0 => rw [bitLongValue_code0 hcode]; exact endCommand_bytesBody (n := 4) rfl (by decide) _ _
  case code1 =>
    rw [bitLongValue_code1 hcode]
    exact endCommand_byteBody (widenBody s.cfg.code1Ext 32) _
  case code2 => exact endCommand_scalar_of_ok (bitLongValue_code2 hcode) _
  case code3 => exact endCommand_bind_of_raise (bitLongValue_code3 hcode) _

/-! ### The bit-double (R163) -/

theorem exec_readBD (s : State) :
    exec .readBD s = endCommand s ((bitDoubleValue s s.cursor.toNat).bind fun v c => .ok (.scalar v) c) := rfl

theorem bitDoubleValue_code0 {s : State} {c : Nat} (h : s.streamField c 2 0) :
    bitDoubleValue s c = (readBytes s (c + 2) 8).bind fun r c => .ok (BitVec.ofNat 64 (leValue r)) c :=
  readPrefix_bind_of_streamField h _

theorem bitDoubleValue_code1 {s : State} {c : Nat} (h : s.streamField c 2 1) :
    bitDoubleValue s c = .ok s.cfg.bdCode1Pattern (c + 2) :=
  readPrefix_bind_of_streamField h _

theorem bitDoubleValue_code2 {s : State} {c : Nat} (h : s.streamField c 2 2) : bitDoubleValue s c = .ok 0 (c + 2) :=
  readPrefix_bind_of_streamField h _

theorem bitDoubleValue_code3_fault {s : State} {c : Nat} (h : s.streamField c 2 3)
    (hpolicy : s.cfg.bdCode3Policy = .fault) : bitDoubleValue s c = .raise .malformedPrefix c 3 := by
  simp only [bitDoubleValue, readPrefix_bind_of_streamField h, hpolicy]

theorem bitDoubleValue_code3_zero {s : State} {c : Nat} (h : s.streamField c 2 3)
    (hpolicy : s.cfg.bdCode3Policy = .zero) : bitDoubleValue s c = .ok 0 (c + 2) := by
  simp only [bitDoubleValue, readPrefix_bind_of_streamField h, hpolicy]

/-- Settles O11, one code after another, code 3 by BD_CODE3_POLICY. -/
theorem bitDoubleByPrefix : Obligations.BitDoubleByPrefix := by
  refine ⟨decode_eq_ok_iff_eq_encode.2 rfl, fun s b0 b1 b2 b3 b4 b5 b6 b7 => ?_⟩
  rw [exec_readBD, ← ofNat_leValue_eight]
  refine ⟨fun hcut => ?noPrefix, fun hcode => ?code0, fun hcode => ?code1, fun hcode => ?code2,
    fun hcode => ⟨fun hpolicy => ?code3Fault, fun hpolicy => ?code3Zero⟩⟩
  case noPrefix => exact endCommand_bind_of_raise (readPrefix_bind_of_not_inStream hcut _) _
  case code0 => rw [bitDoubleValue_code0 hcode]; exact endCommand_bytesBody (n := 8) rfl (by decide) _ id
  case code1 => exact endCommand_scalar_of_ok (bitDoubleValue_code1 hcode) id
  case code2 => exact endCommand_scalar_of_ok (bitDoubleValue_code2 hcode) id
  case code3Fault => exact endCommand_bind_of_raise (bitDoubleValue_code3_fault hcode hpolicy) _
  case code3Zero => exact endCommand_scalar_of_ok (bitDoubleValue_code3_zero hcode hpolicy) id

end Sys2Proof.Machine
end

section
/-! READ_DD (R165): the digits of a little-endian number, the bytes that patching writes and keeps, and the
command by its code. -/

namespace Sys2Proof

theorem Config.wf_dd6Order_perm {k : Config} (h : k.wf = true) : k.dd6Order.Perm [0, 1, 2, 3, 4, 5] := by
  simp only [Config.wf, Config.dd6OrderOk, Bool.and_eq_true, decide_eq_true_eq] at h
  exact h.2

/-- DD6_ORDER names the low six bytes, each once. -/
theorem Config.mem_dd6Order {k : Config} (h : k.wf = true) {o : Nat} : o ∈ k.dd6Order ↔ o < 6 := by
  rw [(Config.wf_dd6Order_perm h).mem_iff]
  simp only [List.mem_cons, List.not_mem_nil, or_false]
  omega

theorem Config.nodup_dd6Order {k : Config} (h : k.wf = true) : k.dd6Order.Nodup :=
  (Config.wf_dd6Order_perm h).nodup_iff.2 (by decide)

end Sys2Proof

namespace Sys2Proof.Machine

/-! ### The bytes of a little-endian number -/

/-- Digit k to base 256 of a little-endian number is its byte k. -/
theorem leValue_digit {l : List Byte} {k : Nat} {b : Byte} (h : l[k]? = some b) :
    leValue l / 256 ^ k % 256 = b.toNat := by
  induction l generalizing k with
  | nil => simp at h
  | cons a l ih =>
    have ha := a.isLt
    cases k with
    | zero =>
      obtain rfl : a = b := by simpa using h
      simp only [leValue]
      omega
    | succ k =>
      have htail : leValue (a :: l) / 256 = leValue l := by simp only [leValue]; omega
      rw [Nat.pow_succ', ← Nat.div_div_eq_div_mul, htail]
      exact ih (by simpa using h)

/-- Byte k of the word that eight bytes assemble to. -/
theorem extractLsb'_ofNat_leValue {l : List Byte} (hlen : l.length = 8) {k : Nat} {b : Byte} (h : l[k]? = some b) :
    (BitVec.ofNat 64 (leValue l)).extractLsb' (8 * k) 8 = b := by
  have hlt : leValue l < 2 ^ 64 := by
    have hbound := leValue_lt l
    rw [hlen] at hbound
    omega
  apply BitVec.eq_of_toNat_eq
  rw [BitVec.extractLsb'_toNat, BitVec.toNat_ofNat, Nat.mod_eq_of_lt hlt, Nat.shiftRight_eq_div_pow, Nat.pow_mul]
  exact leValue_digit h

/-- The bytes of a word assemble to it. -/
theorem ofNat_leValue_bytesOfWord (w : Word) : BitVec.ofNat 64 (leValue (bytesOfWord w)) = w :=
  ofNat_leValue_leBytes w 8 (by decide)

theorem length_bytesOfWord (w : Word) : (bytesOfWord w).length = 8 := length_leBytes w 8

theorem bytesOfWord_getElem? (w : Word) {k : Nat} (hk : k < 8) : (bytesOfWord w)[k]? = some (w.extractLsb' (8 * k) 8) := by
  simp [bytesOfWord, hk]

/-- The upper half of a word is its bytes 7 to 4. -/
theorem append_upper_bytes (w : Word) :
    w.extractLsb' 56 8 ++ w.extractLsb' 48 8 ++ w.extractLsb' 40 8 ++ w.extractLsb' 32 8 = w.extractLsb' 32 32 := by
  rw [BitVec.extractLsb'_append_extractLsb'_eq_extractLsb' (by decide : 56 = 48 + 8),
    BitVec.extractLsb'_append_extractLsb'_eq_extractLsb' (by decide : 48 = 40 + 8),
    BitVec.extractLsb'_append_extractLsb'_eq_extractLsb' (by decide : 40 = 32 + 8)]

/-! ### Patching (R165) -/

theorem length_patchBytes (d : List Byte) (ks : List Nat) (r : List Byte) : (patchBytes d ks r).length = d.length := by
  induction ks generalizing d r with
  | nil => simp only [patchBytes]
  | cons k ks ih =>
    cases r with
    | nil => simp only [patchBytes]
    | cons b r => rw [patchBytes, ih, List.length_set]

/-- Patching keeps the bytes at the indices it does not name. -/
theorem patchBytes_getElem?_of_not_mem {d r : List Byte} {ks : List Nat} {o : Nat} (h : o ∉ ks) :
    (patchBytes d ks r)[o]? = d[o]? := by
  induction ks generalizing d r with
  | nil => simp only [patchBytes]
  | cons k ks ih =>
    obtain ⟨hk, hks⟩ := not_or.1 (mt List.mem_cons.2 h)
    cases r with
    | nil => simp only [patchBytes]
    | cons b r => rw [patchBytes, ih hks, List.getElem?_set_ne (Ne.symm hk)]

/-- Where each index is named once, the byte read at place i stands at the i-th index. -/
theorem patchBytes_getElem?_of_nodup {d r : List Byte} {ks : List Nat} (hks : ks.Nodup) {i o : Nat} {b : Byte}
    (ho : ks[i]? = some o) (hb : r[i]? = some b) (hlen : o < d.length) : (patchBytes d ks r)[o]? = some b := by
  induction ks generalizing d r i with
  | nil => simp at ho
  | cons k ks ih =>
    obtain ⟨hk, hks⟩ := List.nodup_cons.1 hks
    cases r with
    | nil => simp at hb
    | cons a r =>
      cases i with
      | zero =>
        obtain rfl : k = o := by simpa using ho
        obtain rfl : a = b := by simpa using hb
        rw [patchBytes, patchBytes_getElem?_of_not_mem hk, List.getElem?_set_self hlen]
      | succ i =>
        exact ih hks (by simpa using ho) (by simpa using hb) (by rwa [List.length_set])

/-- Under code 1 the four bytes read replace the lower half of DEFAULT. -/
theorem ofNat_leValue_patch_four (w : Word) (b0 b1 b2 b3 : Byte) :
    BitVec.ofNat 64 (leValue (patchBytes (bytesOfWord w) [0, 1, 2, 3] [b0, b1, b2, b3])) =
      w.extractLsb' 32 32 ++ b3 ++ b2 ++ b1 ++ b0 := by
  rw [← append_upper_bytes]
  exact ofNat_leValue_eight b0 b1 b2 b3 (w.extractLsb' 32 8) (w.extractLsb' 40 8) (w.extractLsb' 48 8)
    (w.extractLsb' 56 8)

/-- Under code 3 the eight bytes read replace all of DEFAULT. -/
theorem ofNat_leValue_patch_eight (w : Word) (b0 b1 b2 b3 b4 b5 b6 b7 : Byte) :
    BitVec.ofNat 64
        (leValue (patchBytes (bytesOfWord w) [0, 1, 2, 3, 4, 5, 6, 7] [b0, b1, b2, b3, b4, b5, b6, b7])) =
      b7 ++ b6 ++ b5 ++ b4 ++ b3 ++ b2 ++ b1 ++ b0 :=
  ofNat_leValue_eight b0 b1 b2 b3 b4 b5 b6 b7

section
variable {k : Config} (hk : k.wf = true) (w : Word) (r : List Byte)
include hk

/-- Under code 2 byte DD6_ORDER[i] of the result is the i-th byte read. -/
theorem extractLsb'_patch_dd6Order {i o : Nat} {b : Byte} (ho : k.dd6Order[i]? = some o) (hb : r[i]? = some b) :
    (BitVec.ofNat 64 (leValue (patchBytes (bytesOfWord w) k.dd6Order r))).extractLsb' (8 * o) 8 = b := by
  have hlow : o < 6 := (Config.mem_dd6Order hk).1 (List.mem_of_getElem? ho)
  refine extractLsb'_ofNat_leValue ((length_patchBytes _ _ _).trans (length_bytesOfWord w)) ?_
  exact patchBytes_getElem?_of_nodup (Config.nodup_dd6Order hk) ho hb (by rw [length_bytesOfWord]; omega)

/-- Under code 2 DD6_ORDER names neither of the top two bytes, so DEFAULT's are kept. -/
theorem extractLsb'_patch_dd6Order_top :
    (BitVec.ofNat 64 (leValue (patchBytes (bytesOfWord w) k.dd6Order r))).extractLsb' 48 16 = w.extractLsb' 48 16 := by
  have hkept : ∀ o, 6 ≤ o → o < 8 →
      (BitVec.ofNat 64 (leValue (patchBytes (bytesOfWord w) k.dd6Order r))).extractLsb' (8 * o) 8 =
        w.extractLsb' (8 * o) 8 := fun o hge hlt => by
    have hnot : o ∉ k.dd6Order := fun hmem => absurd ((Config.mem_dd6Order hk).1 hmem) (by omega)
    refine extractLsb'_ofNat_leValue ((length_patchBytes _ _ _).trans (length_bytesOfWord w)) ?_
    rw [patchBytes_getElem?_of_not_mem hnot, bytesOfWord_getElem? w hlt]
  have htop : ∀ v : Word, v.extractLsb' 48 16 = v.extractLsb' (8 * 7) 8 ++ v.extractLsb' (8 * 6) 8 := fun v =>
    (BitVec.extractLsb'_append_extractLsb'_eq_extractLsb' (by decide : 8 * 7 = 8 * 6 + 8)).symm
  rw [htop, hkept 7 (by decide) (by decide), hkept 6 (by decide) (by decide), htop w]

end

/-! ### The command by its code -/

theorem exec_readDD (s : State) :
    exec .readDD s =
      endCommand s ((patchedDefault s s.cursor.toNat).bind fun d c => .ok (.scalar (BitVec.ofNat 64 (leValue d))) c) := rfl

theorem patchedDefault_code0 {s : State} {c : Nat} (h : s.streamField c 2 0) :
    patchedDefault s c = .ok (bytesOfWord s.dflt) (c + 2) :=
  readPrefix_bind_of_streamField h _

theorem patchedDefault_code1 {s : State} {c : Nat} (h : s.streamField c 2 1) :
    patchedDefault s c =
      (readBytes s (c + 2) 4).bind fun r c => .ok (patchBytes (bytesOfWord s.dflt) [0, 1, 2, 3] r) c :=
  readPrefix_bind_of_streamField h _

theorem patchedDefault_code2 {s : State} {c : Nat} (h : s.streamField c 2 2) :
    patchedDefault s c =
      (readBytes s (c + 2) 6).bind fun r c => .ok (patchBytes (bytesOfWord s.dflt) s.cfg.dd6Order r) c :=
  readPrefix_bind_of_streamField h _

theorem patchedDefault_code3 {s : State} {c : Nat} (h : s.streamField c 2 3) :
    patchedDefault s c =
      (readBytes s (c + 2) 8).bind fun r c => .ok (patchBytes (bytesOfWord s.dflt) [0, 1, 2, 3, 4, 5, 6, 7] r) c :=
  readPrefix_bind_of_streamField h _

/-- Settles O12, one code after another; under code 2 the word is DEFAULT patched in DD6_ORDER. -/
theorem defaultPatchedDoubleByPrefix : Obligations.DefaultPatchedDoubleByPrefix := by
  refine ⟨decode_eq_ok_iff_eq_encode.2 rfl, fun s b0 b1 b2 b3 b4 b5 b6 b7 hcfg => ?_⟩
  rw [exec_readDD, ← ofNat_leValue_patch_four, ← ofNat_leValue_patch_eight s.dflt]
  refine ⟨fun hcut => ?noPrefix, fun hcode => ?code0, fun hcode => ?code1, fun hcode => ?code2, fun hcode => ?code3⟩
  case noPrefix => exact endCommand_bind_of_raise (readPrefix_bind_of_not_inStream hcut _) _
  case code0 =>
    have hread := endCommand_scalar_of_ok (patchedDefault_code0 hcode) fun d => BitVec.ofNat 64 (leValue d)
    rwa [ofNat_leValue_bytesOfWord] at hread
  case code1 => rw [patchedDefault_code1 hcode]; exact endCommand_bytesBody (n := 4) rfl (by decide) _ _
  case code2 =>
    rw [patchedDefault_code2 hcode]
    obtain ⟨hread, hcut⟩ := endCommand_bytesBody (s := s) (n := 6) (r := [b0, b1, b2, b3, b4, b5]) rfl (by decide)
      (patchBytes (bytesOfWord s.dflt) s.cfg.dd6Order) fun d => BitVec.ofNat 64 (leValue d)
    exact ⟨fun hbody => ⟨_, hread hbody, extractLsb'_patch_dd6Order_top hcfg _ _,
      fun i o b => extractLsb'_patch_dd6Order hcfg _ _⟩, hcut⟩
  case code3 => rw [patchedDefault_code3 hcode]; exact endCommand_bytesBody (n := 8) rfl (by decide) _ _

end Sys2Proof.Machine
end

section
/-! The continuation-encoded integers (spec/42_continuation.md): what Collect() answers on a run of continued bytes, the sums
its bytes stand for, the words of an M-short, and the ranges of the results. -/

namespace Sys2Proof

theorem Config.wf_mcMaxBytes {k : Config} (h : k.wf = true) : 4 ≤ k.mcMaxBytes ∧ k.mcMaxBytes ≤ 8 := by
  simp only [Config.wf, Config.mcMaxBytesOk, Bool.and_eq_true, decide_eq_true_eq] at h
  exact h.1.2

end Sys2Proof

namespace Sys2Proof.Machine

open Sys2Proof.Claims

/-! ### Collect() by the bytes it meets (R180) -/

theorem Got.bind_ok_right {α : Type} (x : Got α) : (x.bind fun v c => .ok v c) = x := by cases x <;> rfl

theorem Got.bind_assoc {α β γ : Type} (x : Got α) (f : α → Nat → Got β) (g : β → Nat → Got γ) :
    (x.bind f).bind g = x.bind fun v c => (f v c).bind g := by cases x <;> rfl

theorem State.streamBytes_left {s : State} {p : Nat} {r q : List Byte} (h : s.streamBytes p (r ++ q)) :
    s.streamBytes p r := by
  have hin := h.1
  refine ⟨?_, (State.streamBytes_append.1 h).2⟩
  simp only [State.inStream, List.length_append] at hin ⊢
  omega

theorem collectFrom_cons_of_continued {s : State} {b : Byte} {c : Nat} (h : s.streamBytes c [b]) (hb : b.getLsbD 7 = true)
    (left n : Nat) :
    collectFrom s (left + 1) n c = (collectFrom s left (n + 1) (c + 8)).bind fun bs c' => .ok (b :: bs) c' := by
  simp only [collectFrom, readField_of_streamField (State.streamBytes_one h), Got.bind_ok, BitVec.ofNat_toNat,
    BitVec.setWidth_eq, continues, hb, if_true]

/-- Collect() passes over a run of continued bytes and goes on behind it. -/
theorem collectFrom_append_of_continued {s : State} {r : List Byte} {c : Nat} (hcont : ∀ b ∈ r, b.getLsbD 7 = true)
    (hrun : r ≠ [] → s.streamBytes c r) (left n : Nat) :
    collectFrom s (left + r.length) n c =
      (collectFrom s left (n + r.length) (c + 8 * r.length)).bind fun bs c' => .ok (r ++ bs) c' := by
  induction r generalizing n c with
  | nil => exact (Got.bind_ok_right _).symm
  | cons b r ih =>
    obtain ⟨hb, hr⟩ := List.forall_mem_cons.1 hcont
    have hall : s.streamBytes c ([b] ++ r) := hrun (List.cons_ne_nil b r)
    have htail : s.streamBytes (c + 8) r := (State.streamBytes_append.1 hall).1
    have hn : n + (r.length + 1) = n + 1 + r.length := by omega
    have hc : c + 8 * (r.length + 1) = c + 8 + 8 * r.length := by omega
    rw [List.length_cons, ← Nat.add_assoc, collectFrom_cons_of_continued (State.streamBytes_left hall) hb,
      ih hr fun _ => htail, Got.bind_assoc, hn, hc]
    rfl

theorem collectFrom_of_not_inStream {s : State} {c : Nat} (h : ¬s.inStream c 8) (left n : Nat) :
    collectFrom s left n c = .raise .outOfBounds c 0 := by
  cases left <;> rw [collectFrom, readField_of_not_inStream h, Got.bind_raise]

/-- The last byte Collect() may read has bit 7 set. -/
theorem collectFrom_zero_of_continued {s : State} {b : Byte} {c : Nat} (h : s.streamBytes c [b]) (hb : b.getLsbD 7 = true)
    (n : Nat) : collectFrom s 0 n c = .raise .contLength c (n + 1) := by
  simp only [collectFrom, readField_of_streamField (State.streamBytes_one h), Got.bind_ok, BitVec.ofNat_toNat,
    BitVec.setWidth_eq, continues, hb, if_true]

section
variable {s : State} {r : List Byte} {c : Nat} (hcont : ∀ b ∈ r, b.getLsbD 7 = true)
include hcont

theorem collect_of_terminated {t : Byte} (ht : t.getLsbD 7 = false) (hlen : r.length < s.cfg.mcMaxBytes)
    (h : s.streamBytes c (r ++ [t])) : collect s c = .ok (r ++ [t]) (c + 8 * (r.length + 1)) :=
  collectFrom_of_streamBytes s r t _ 0 c hcont ht (by omega) h

theorem collect_of_cut (hrun : r ≠ [] → s.streamBytes c r) (hlen : r.length < s.cfg.mcMaxBytes)
    (hcut : ¬s.inStream (c + 8 * r.length) 8) : collect s c = .raise .outOfBounds (c + 8 * r.length) 0 := by
  have hleft : s.cfg.mcMaxBytes - 1 = s.cfg.mcMaxBytes - 1 - r.length + r.length := by omega
  rw [collect, hleft, collectFrom_append_of_continued hcont hrun, collectFrom_of_not_inStream hcut, Got.bind_raise]

/-- The fault arises at the run's last byte, so the run is split there. -/
theorem collect_of_too_long (hne : r ≠ []) (hrun : s.streamBytes c r) (hlen : r.length = s.cfg.mcMaxBytes) :
    collect s c = .raise .contLength (c + 8 * (s.cfg.mcMaxBytes - 1)) s.cfg.mcMaxBytes := by
  obtain ⟨q, b, rfl⟩ := (List.eq_nil_or_concat' r).resolve_left hne
  obtain ⟨hlast, -⟩ := State.streamBytes_append.1 hrun
  obtain ⟨hq, hb⟩ := List.forall_mem_append.1 hcont
  rw [List.length_append, List.length_singleton] at hlen
  rw [collect, ← hlen, Nat.add_sub_cancel]
  have hpass := collectFrom_append_of_continued hq (fun _ => State.streamBytes_left hrun) 0 0
  rwa [collectFrom_zero_of_continued hlast (hb b (List.mem_singleton_self b)), Got.bind_raise, Nat.zero_add] at hpass

end

theorem collect_eq_ok_length {s : State} {c c' : Nat} {bs : List Byte} (hcfg : s.cfg.wf = true)
    (h : collect s c = .ok bs c') : bs ≠ [] ∧ bs.length ≤ s.cfg.mcMaxBytes := by
  obtain ⟨hpos, hle, -⟩ := collectFrom_eq_ok h
  have hcap := Config.wf_mcMaxBytes hcfg
  exact ⟨List.ne_nil_of_length_pos hpos, by omega⟩

/-! ### The sums of the 7-bit groups (R181, R182) -/

theorem groups_cons (b : Byte) (r : List Byte) : groups (b :: r) = (b &&& 0x7F).toNat + 128 * groups r := by
  simp only [groups, List.length_cons, Finset.sum_range_succ', List.getD_cons_succ, List.getD_cons_zero,
    Nat.shiftLeft_eq, Finset.mul_sum, Nat.mul_add, pow_add]
  rw [Nat.add_comm]
  refine congrArg₂ _ (by simp) (Finset.sum_congr rfl fun i _ => ?_)
  ring

theorem groupSum_eq_groups (r : List Byte) : groupSum r = groups r := by
  induction r with
  | nil => rfl
  | cons b r ih => rw [groupSum, ih, groups_cons]

theorem signedMagnitude_append_singleton (r : List Byte) (t : Byte) :
    signedMagnitude (r ++ [t]) = groups r + (t &&& 0x3F).toNat <<< (7 * r.length) := by
  induction r with
  | nil => simp [signedMagnitude, groups]
  | cons b r ih =>
    have hstep : signedMagnitude (b :: (r ++ [t])) = (b &&& 0x7F).toNat + 128 * signedMagnitude (r ++ [t]) := by
      rw [signedMagnitude]
      exact List.append_ne_nil_of_right_ne_nil r (List.cons_ne_nil t [])
    rw [List.cons_append, hstep, ih, groups_cons, List.length_cons]
    simp only [Nat.shiftLeft_eq, Nat.mul_add, pow_add]
    ring

theorem signFlag_append_singleton (r : List Byte) (t : Byte) : signFlag (r ++ [t]) = t.getLsbD 6 := by
  simp only [signFlag, List.getLast?_concat]

/-- `trunc_64(2^64 - m)` is the negation of m in 64 bits. -/
theorem ofNat_two_pow_sub {m : Nat} (h : m ≤ 2 ^ 64) : BitVec.ofNat 64 (2 ^ 64 - m) = -BitVec.ofNat 64 m := by
  apply BitVec.eq_of_toNat_eq
  rw [BitVec.toNat_neg, BitVec.toNat_ofNat, BitVec.toNat_ofNat]
  omega

/-- The magnitude of as many bytes as MC_MAX_BYTES admits. -/
theorem signedMagnitude_lt_of_length_le {bs : List Byte} {k : Nat} (hne : bs ≠ []) (hlen : bs.length ≤ k) :
    2 * signedMagnitude bs < 2 ^ (7 * k) :=
  (signedMagnitude_lt bs hne).trans_le (Nat.pow_le_pow_right (by decide) (by omega))

theorem groupSum_lt_of_length_le {bs : List Byte} {k : Nat} (hlen : bs.length ≤ k) : groupSum bs < 2 ^ (7 * k) :=
  (groupSum_lt bs).trans_le (Nat.pow_le_pow_right (by decide) (by omega))

theorem signedMCharValue_append_singleton {r : List Byte} {t : Byte} (hlen : r.length < 8) :
    signedMCharValue (r ++ [t]) =
      if t.getLsbD 6 = true then -BitVec.ofNat 64 (groups r + (t &&& 0x3F).toNat <<< (7 * r.length))
      else BitVec.ofNat 64 (groups r + (t &&& 0x3F).toNat <<< (7 * r.length)) := by
  have hmag : 2 * signedMagnitude (r ++ [t]) < 2 ^ (7 * 8) :=
    signedMagnitude_lt_of_length_le (by simp) (by simpa using hlen)
  rw [signedMCharValue, ofNat_two_pow_sub (by omega), signFlag_append_singleton, signedMagnitude_append_singleton]

/-- The value of a signed M-char is its magnitude up to the sign. -/
theorem natAbs_toInt_signedMCharValue {bs : List Byte} (h : signedMagnitude bs < 2 ^ 63) :
    (signedMCharValue bs).toInt.natAbs = signedMagnitude bs := by
  rw [signedMCharValue]
  split <;> simp only [BitVec.toInt_eq_toNat_cond, BitVec.toNat_ofNat] <;> omega

/-! ### The M-char commands (R181, R182) -/

/-- The shared shape of R181 and R182: the bytes of Collect(), with the value `f` gives them. -/
def mCharCommand (s : State) (f : List Byte → Word) : Host.Outcome State Fault Refusal :=
  endCommand s ((collect s s.cursor.toNat).bind fun bs c => .ok (.scalar (f bs)) c)

theorem exec_readMC (s : State) : exec .readMC s = mCharCommand s signedMCharValue := rfl

theorem exec_readUMC (s : State) : exec .readUMC s = mCharCommand s fun bs => zext64 (groupSum bs) := rfl

theorem mCharCommand_of_terminated {s : State} {r : List Byte} {t : Byte} (hcont : ∀ b ∈ r, b.getLsbD 7 = true)
    (ht : t.getLsbD 7 = false) (hlen : r.length < s.cfg.mcMaxBytes) (h : s.streamBytes s.cursor.toNat (r ++ [t]))
    (f : List Byte → Word) :
    mCharCommand s f = .next (s.afterScalar (f (r ++ [t])) (8 * (r.length + 1))) :=
  endCommand_scalar_of_ok (collect_of_terminated hcont ht hlen h) f

/-- An M-char command has the two faults of Collect() and no other. -/
theorem collectFaults_of_mCharCommand {i : Instr} {s : State} {f : List Byte → Word} (hexec : exec i s = mCharCommand s f)
    (hcfg : s.cfg.wf = true) (r : List Byte) : collectFaults i s r := by
  intro hcont hbytes hin
  rw [hexec]
  refine ⟨fun hlen hcut => ?cut, fun hlen => ?tooLong⟩
  case cut => exact endCommand_bind_of_raise (collect_of_cut hcont (fun hne => ⟨hin hne, hbytes⟩) hlen hcut) _
  case tooLong =>
    have hcap := Config.wf_mcMaxBytes hcfg
    have hne : r ≠ [] := List.ne_nil_of_length_pos (by omega)
    exact endCommand_bind_of_raise (collect_of_too_long hcont hne ⟨hin hne, hbytes⟩ hlen) _

/-- Settles O13: the command's value on a terminated run is the signed sum, and its faults are those of Collect(). (The
obligation's own name is that of the model's function.) -/
theorem signedMCharValue_holds : Obligations.SignedMCharValue := by
  refine ⟨decode_eq_ok_iff_eq_encode.2 rfl, fun s r t hcfg => ⟨fun hcont ht hlen h => ?_,
    collectFaults_of_mCharCommand (exec_readMC s) hcfg r⟩⟩
  have hcap := Config.wf_mcMaxBytes hcfg
  rw [exec_readMC, mCharCommand_of_terminated hcont ht hlen h, signedMCharValue_append_singleton (by omega)]

/-- Settles O14: the command's value on a terminated run is the sum of all groups, and its faults are those of Collect(). -/
theorem unsignedMCharValue : Obligations.UnsignedMCharValue := by
  refine ⟨decode_eq_ok_iff_eq_encode.2 rfl, fun s r t hcfg => ⟨fun hcont ht hlen h => ?_,
    collectFaults_of_mCharCommand (exec_readUMC s) hcfg r⟩⟩
  rw [exec_readUMC, mCharCommand_of_terminated hcont ht hlen h, groupSum_eq_groups, zext64]

/-! ### The M-short (R183) -/

theorem exec_readMS (s : State) :
    exec .readMS s = endCommand s ((mShortValue s s.cursor.toNat).bind fun v c => .ok (.scalar (zext64 v)) c) := rfl

theorem readShortWord_of_streamBytes {s : State} {c : Nat} {b0 b1 : Byte} (h : s.streamBytes c [b0, b1]) :
    readShortWord s c = .ok (b1 ++ b0) (c + 16) := by
  rw [← ofNat_leValue_two]
  exact bytesBody_of_streamBytes rfl h _

theorem readShortWord_of_not_inStream {s : State} {c : Nat} (h : ¬s.inStream c 16) :
    readShortWord s c = .raise .outOfBounds c 0 :=
  bytesBody_of_not_inStream (n := 2) (by decide) h _

/-- A word's continuation bit is bit 7 of its second byte. -/
theorem getLsbD_append_byte_fifteen (h l : Byte) : (h ++ l).getLsbD 15 = h.getLsbD 7 := by
  rw [BitVec.getLsbD_append]
  rfl

theorem mShortValue_of_not_inStream {s : State} {c : Nat} (h : ¬s.inStream c 16) :
    mShortValue s c = .raise .outOfBounds c 0 := by
  rw [mShortValue, readShortWord_of_not_inStream h, Got.bind_raise]

section
variable {s : State} {c : Nat} {b0 b1 b2 b3 : Byte} (hfirst : s.streamBytes c [b0, b1])
include hfirst

theorem mShortValue_of_single (hb1 : b1.getLsbD 7 = false) :
    mShortValue s c = .ok ((b1 ++ b0 : BitVec 16) &&& 0x7FFF).toNat (c + 16) := by
  rw [mShortValue, readShortWord_of_streamBytes hfirst, Got.bind_ok, getLsbD_append_byte_fifteen, hb1]
  rfl

/-- A continued first word: the second word decides. -/
theorem mShortValue_of_continued (hb1 : b1.getLsbD 7 = true) :
    mShortValue s c = (readShortWord s (c + 16)).bind fun w1 c2 =>
      if w1.getLsbD 15 then .raise .contLength (c + 16) 4
      else .ok (((b1 ++ b0 : BitVec 16) &&& 0x7FFF).toNat ||| ((w1 &&& 0x7FFF).toNat <<< 15)) c2 := by
  rw [mShortValue, readShortWord_of_streamBytes hfirst, Got.bind_ok, getLsbD_append_byte_fifteen, if_pos hb1]

theorem mShortValue_of_second_cut (hb1 : b1.getLsbD 7 = true) (hcut : ¬s.inStream (c + 16) 16) :
    mShortValue s c = .raise .outOfBounds (c + 16) 0 := by
  rw [mShortValue_of_continued hfirst hb1, readShortWord_of_not_inStream hcut, Got.bind_raise]

theorem mShortValue_of_second_continued (hb1 : b1.getLsbD 7 = true) (hsecond : s.streamBytes (c + 16) [b2, b3])
    (hb3 : b3.getLsbD 7 = true) : mShortValue s c = .raise .contLength (c + 16) 4 := by
  rw [mShortValue_of_continued hfirst hb1, readShortWord_of_streamBytes hsecond, Got.bind_ok,
    getLsbD_append_byte_fifteen, if_pos hb3]

theorem mShortValue_of_double (hb1 : b1.getLsbD 7 = true) (hsecond : s.streamBytes (c + 16) [b2, b3])
    (hb3 : b3.getLsbD 7 = false) :
    mShortValue s c = .ok (((b1 ++ b0 : BitVec 16) &&& 0x7FFF).toNat ||| (((b3 ++ b2 : BitVec 16) &&& 0x7FFF).toNat <<< 15))
      (c + 32) := by
  rw [mShortValue_of_continued hfirst hb1, readShortWord_of_streamBytes hsecond, Got.bind_ok,
    getLsbD_append_byte_fifteen, hb3]
  rfl

end

/-- Two words combined as numbers are the words combined in a register. -/
theorem zext64_or_shiftLeft (v w : BitVec 16) :
    zext64 (v.toNat ||| w.toNat <<< 15) = v.setWidth 64 ||| w.setWidth 64 <<< 15 := by
  have hv := v.isLt
  have hw := w.isLt
  have hshift : w.toNat <<< 15 < 2 ^ 64 := by rw [Nat.shiftLeft_eq]; omega
  apply BitVec.eq_of_toNat_eq
  rw [zext64, BitVec.toNat_ofNat, BitVec.toNat_or, BitVec.toNat_shiftLeft, BitVec.toNat_setWidth_of_le (by decide),
    BitVec.toNat_setWidth_of_le (by decide), Nat.mod_eq_of_lt hshift, Nat.mod_eq_of_lt]
  exact Nat.or_lt_two_pow (by omega) hshift

/-- Settles O15, one word or two, by the continuation bit of each. -/
theorem mShortByContinuation : Obligations.MShortByContinuation := by
  refine ⟨decode_eq_ok_iff_eq_encode.2 rfl, fun s b0 b1 b2 b3 => ?_⟩
  rw [exec_readMS, ← zext64_or_shiftLeft, ← BitVec.ofNat_toNat]
  refine ⟨fun hcut => ?firstCut, fun hfirst => ⟨fun hb1 => ?single, fun hb1 => ⟨fun hcut => ?secondCut,
    fun hsecond => ⟨fun hb3 => ?secondContinued, fun hb3 => ?double⟩⟩⟩⟩
  case firstCut => exact endCommand_bind_of_raise (mShortValue_of_not_inStream hcut) _
  case single => exact endCommand_scalar_of_ok (mShortValue_of_single hfirst hb1) zext64
  case secondCut => exact endCommand_bind_of_raise (mShortValue_of_second_cut hfirst hb1 hcut) _
  case secondContinued => exact endCommand_bind_of_raise (mShortValue_of_second_continued hfirst hb1 hsecond hb3) _
  case double => exact endCommand_scalar_of_ok (mShortValue_of_double hfirst hb1 hsecond hb3) zext64

/-! ### The ranges of the results (R185) -/

theorem toNat_and_low15_lt (w : BitVec 16) : (w &&& 0x7FFF).toNat < 2 ^ 15 := by
  rw [BitVec.toNat_and]
  exact Nat.and_lt_two_pow _ (by decide)

theorem mShortValue_lt {s : State} {c c' v : Nat} (h : mShortValue s c = .ok v c') : v < 2 ^ 30 := by
  obtain ⟨w0, c1, -, h⟩ := Got.bind_eq_ok.1 h
  have hw0 := toNat_and_low15_lt w0
  split at h
  · obtain ⟨w1, c2, -, h⟩ := Got.bind_eq_ok.1 h
    split at h
    · cases h
    · cases h
      have hw1 := toNat_and_low15_lt w1
      exact Nat.or_lt_two_pow (by omega) (by rw [Nat.shiftLeft_eq]; omega)
  · cases h
    omega

/-- A command that stages one scalar and leaves FAULT clear has returned that scalar. -/
theorem result_of_endCommand_scalar {α : Type} {s t : State} {x : Got α} {f : α → Word} (hfault : t.fault = false)
    (h : endCommand s (x.bind fun v c => .ok (.scalar (f v)) c) = .next t) : ∃ v c, x = .ok v c ∧ t.result = f v := by
  obtain ⟨w, c, hok, rfl⟩ | ⟨k, p, d, -, rfl⟩ := endCommand_eq_next.1 h
  · obtain ⟨v, c', hx, ⟨⟩⟩ := Got.bind_eq_ok.1 hok
    exact ⟨v, c, hx, rfl⟩
  · rw [raiseFault_fault] at hfault
    cases hfault

theorem zext64_toNat_le (v : Nat) : (zext64 v).toNat ≤ v := by
  rw [zext64, BitVec.toNat_ofNat]
  exact Nat.mod_le v _

section
variable {s t : State} (hcfg : s.cfg.wf = true) (hfault : t.fault = false)
include hcfg hfault

theorem result_of_mCharCommand {f : List Byte → Word} (h : mCharCommand s f = .next t) :
    ∃ bs, bs ≠ [] ∧ bs.length ≤ s.cfg.mcMaxBytes ∧ t.result = f bs := by
  obtain ⟨bs, c, hcollect, hresult⟩ := result_of_endCommand_scalar hfault h
  obtain ⟨hne, hlen⟩ := collect_eq_ok_length hcfg hcollect
  exact ⟨bs, hne, hlen, hresult⟩

theorem natAbs_result_readMC_lt {k : Nat} (hk : s.cfg.mcMaxBytes ≤ k) (hk8 : k ≤ 8) (h : exec .readMC s = .next t) :
    2 * t.result.toInt.natAbs < 2 ^ (7 * k) := by
  obtain ⟨bs, hne, hlen, hresult⟩ := result_of_mCharCommand hcfg hfault h
  have hmag : 2 * signedMagnitude bs < 2 ^ (7 * 8) := signedMagnitude_lt_of_length_le hne (by omega)
  rw [hresult, natAbs_toInt_signedMCharValue (by omega)]
  exact signedMagnitude_lt_of_length_le hne (hlen.trans hk)

theorem result_readUMC_lt {k : Nat} (hk : s.cfg.mcMaxBytes ≤ k) (h : exec .readUMC s = .next t) :
    t.result.toNat < 2 ^ (7 * k) := by
  obtain ⟨bs, -, hlen, hresult⟩ := result_of_mCharCommand hcfg hfault h
  rw [hresult]
  exact (zext64_toNat_le _).trans_lt (groupSum_lt_of_length_le (hlen.trans hk))

end

theorem result_readMS_lt {s t : State} (hfault : t.fault = false) (h : exec .readMS s = .next t) :
    t.result.toNat < 2 ^ 30 := by
  obtain ⟨v, c, hvalue, hresult⟩ := result_of_endCommand_scalar hfault h
  rw [hresult]
  exact (zext64_toNat_le v).trans_lt (mShortValue_lt hvalue)

/-- Settles O16: the bounds of n bytes, at the 8 bytes MC_MAX_BYTES admits and at 4. -/
theorem continuationResultsInRange : Obligations.ContinuationResultsInRange := by
  intro s t hcfg _ hfault
  have hcap := (Config.wf_mcMaxBytes hcfg).2
  refine ⟨fun h => ?signed, result_readUMC_lt hcfg hfault (k := 8) hcap, result_readMS_lt hfault,
    fun hfour => ⟨fun h => ?signedFour, result_readUMC_lt hcfg hfault (k := 4) hfour.le⟩⟩
  case signed =>
    have habs := natAbs_result_readMC_lt hcfg hfault (k := 8) hcap le_rfl h
    omega
  case signedFour =>
    have habs := natAbs_result_readMC_lt hcfg hfault (k := 4) hfour.le (by decide) h
    omega

end Sys2Proof.Machine
end

section
/-! The text and handle readers (spec/43_composite.md): the one end they share, a cap on the length before a payload is read
(R200, R202), and what comes before it. -/

namespace Sys2Proof.Machine

open Sys2Proof.Claims

/-! ### The end of a text or handle command (R200, R202) -/

/-- The shared end of R201, R203 and R204, `m` bits past the cursor: a length `n` above `cap` faults at `pos`, else `n` bytes
are read and staged, with HCODE where the command writes it. -/
def payloadCommand (s : State) (k : Cause) (cap pos n m : Nat) (code : Option (BitVec 4)) :
    Host.Outcome State Fault Refusal :=
  endCommand s ((if n > cap then .raise k pos n else readBytes s (s.cursor.toNat + m) n).bind fun r c =>
    .ok ⟨none, code, some r⟩ c)

section
variable {s : State} {k : Cause} {cap pos n m : Nat} {code : Option (BitVec 4)}

theorem payloadCommand_of_cap_lt (hcap : cap < n) :
    payloadCommand s k cap pos n m code = .next (s.afterFault k.code pos n) :=
  endCommand_bind_of_raise (if_pos hcap) _

/-- A payload cut off is not empty, because the bits before it lie in the stream. -/
theorem payloadCommand_of_cut (hin : s.inStream s.cursor.toNat m) (hcap : n ≤ cap)
    (hcut : ¬s.inStream (s.cursor.toNat + m) (8 * n)) :
    payloadCommand s k cap pos n m code = .next (s.afterFault 1 (s.cursor.toNat + m) 0) := by
  have hne : n ≠ 0 := by
    rintro rfl
    exact hcut hin
  exact endCommand_bind_of_raise ((if_neg hcap.not_gt).trans (readBytes_of_not_inStream hne hcut)) _

theorem payloadCommand_of_streamBytes {r : List Byte} (hcap : n ≤ cap) (hlen : r.length = n)
    (h : s.streamBytes (s.cursor.toNat + m) r) :
    ∃ t, payloadCommand s k cap pos n m code = .next t ∧ s.afterPayload (code.getD s.hcode) r (m + 8 * n) t := by
  subst hlen
  refine ⟨_, ?_, afterPayload_commit s ⟨none, code, some r⟩ r (m + 8 * r.length) rfl rfl⟩
  rw [payloadCommand, if_neg hcap.not_gt, readBytes_of_streamBytes h, Got.bind_ok, endCommand_ok, Nat.add_assoc]

end

/-! ### The text (R201) -/

theorem exec_readTV (s : State) :
    exec .readTV s = endCommand s ((textPayload s s.cursor.toNat).bind fun r c => .ok (.text r) c) := rfl

theorem inStream_of_bitShortAt {s : State} {p l n : Nat} (h : bitShortAt s p l n) : s.inStream p n := by
  obtain ⟨b0, b1, -, hbody, -, rfl⟩ | ⟨b, -, hbody, -, rfl⟩ | ⟨hcode, -, rfl⟩ | ⟨hcode, -, rfl⟩ := h
  · exact hbody.1
  · exact hbody.1
  · exact hcode.1
  · exact hcode.1

theorem lt_of_bitShortAt {s : State} {p l n : Nat} (h : bitShortAt s p l n) : l < 2 ^ 16 := by
  obtain ⟨b0, b1, -, -, rfl, -⟩ | ⟨b, -, -, rfl, -⟩ | ⟨-, rfl, -⟩ | ⟨-, rfl, -⟩ := h
  · exact (b1 ++ b0).isLt
  · exact (widenBody s.cfg.code1Ext 16 b).isLt
  · decide
  · decide

/-- A text's length is the bit-short at the cursor read as unsigned, whatever its form. -/
theorem exec_readTV_of_bitShortAt {s : State} {l n : Nat} (h : bitShortAt s s.cursor.toNat l n) :
    exec .readTV s = payloadCommand s .textCap s.cfg.payloadCap s.cursor.toNat l n none := by
  have hlength : (BitVec.ofNat 16 l).toNat = l := Nat.mod_eq_of_lt (lt_of_bitShortAt h)
  rw [exec_readTV, textPayload, bitShortValue_of_bitShortAt h, Got.bind_ok, hlength]
  rfl

theorem exec_readTV_of_bitShortCut {s : State} {pos : Nat} (h : bitShortCut s s.cursor.toNat pos) :
    exec .readTV s = .next (s.afterFault 1 pos 0) := by
  rw [exec_readTV, textPayload, bitShortValue_of_bitShortCut h, Got.bind_raise]
  exact endCommand_bind_of_raise rfl _

/-- Settles O17: with its length read, a text command is the payload command that leaves HCODE. -/
theorem textReader : Obligations.TextReader := by
  refine ⟨decode_eq_ok_iff_eq_encode.2 rfl, fun s l n pos r => ⟨exec_readTV_of_bitShortCut, fun hlength => ?_⟩⟩
  rw [exec_readTV_of_bitShortAt hlength]
  exact ⟨payloadCommand_of_cap_lt, payloadCommand_of_cut (inStream_of_bitShortAt hlength),
    payloadCommand_of_streamBytes⟩

/-! ### The handles (R203, R204) -/

theorem exec_readH (s : State) :
    exec .readH s = endCommand s ((readField s s.cursor.toNat 4).bind fun code pos =>
      (readField s pos 4).bind fun n c =>
        (handlePayload s pos n c).bind fun r c => .ok (.handle (BitVec.ofNat 4 code) r) c) := rfl

theorem exec_readH0 (s : State) :
    exec .readH0 s = endCommand s ((readField s s.cursor.toNat 8).bind fun n c =>
      (handlePayload s s.cursor.toNat n c).bind fun r c => .ok (.handle 0 r) c) := rfl

section
variable {s : State} {code n : Nat}

theorem exec_readH_of_counter_cut (hcode : s.streamField s.cursor.toNat 4 code)
    (hcut : ¬s.inStream (s.cursor.toNat + 4) 4) : exec .readH s = .next (s.afterFault 1 (s.cursor.toNat + 4) 0) := by
  rw [exec_readH, readField_of_streamField hcode, Got.bind_ok]
  exact endCommand_bind_of_raise (readField_of_not_inStream hcut) _

theorem exec_readH_of_counter (hcode : s.streamField s.cursor.toNat 4 code)
    (hcounter : s.streamField (s.cursor.toNat + 4) 4 n) :
    exec .readH s =
      payloadCommand s .handleCap s.cfg.handleMax (s.cursor.toNat + 4) n 8 (some (BitVec.ofNat 4 code)) := by
  rw [exec_readH, readField_of_streamField hcode, Got.bind_ok, readField_of_streamField hcounter]
  rfl

theorem exec_readH0_of_counter (hcounter : s.streamField s.cursor.toNat 8 n) :
    exec .readH0 s = payloadCommand s .handleCap s.cfg.handleMax s.cursor.toNat n 8 (some 0) := by
  rw [exec_readH0, readField_of_streamField hcounter]
  rfl

end

/-- Settles O18: with its code and counter read, the command is the payload command that writes the code. -/
theorem handleReader : Obligations.HandleReader := by
  refine ⟨decode_eq_ok_iff_eq_encode.2 rfl, fun s code n r => ⟨fun hcut => ?codeCut, fun hcode =>
    ⟨exec_readH_of_counter_cut hcode, fun hcounter => ?payload⟩⟩⟩
  case codeCut => exact endCommand_bind_of_raise (readField_of_not_inStream hcut) _
  case payload =>
    rw [exec_readH_of_counter hcode hcounter]
    exact ⟨payloadCommand_of_cap_lt, payloadCommand_of_cut hcounter.1, payloadCommand_of_streamBytes⟩

/-- Settles O19: with its counter read, the command is the payload command that writes code 0. -/
theorem inferredCodeHandleReader : Obligations.InferredCodeHandleReader := by
  refine ⟨decode_eq_ok_iff_eq_encode.2 rfl, fun s n r => ⟨fun hcut => ?counterCut, fun hcounter => ?payload⟩⟩
  case counterCut => exact endCommand_bind_of_raise (readField_of_not_inStream hcut) _
  case payload =>
    rw [exec_readH0_of_counter hcounter]
    exact ⟨payloadCommand_of_cap_lt, payloadCommand_of_cut hcounter.1, payloadCommand_of_streamBytes⟩

end Sys2Proof.Machine
end

section
/-! How a command ends (R222 to R228): it commits what it staged, or raises a cause of its row of R226, or is refused for a
byte the host never wrote. -/

namespace Sys2Proof.Machine

open Sys2Proof.Claims

/-! ### The ends of an instruction -/

/-- An instruction that answers a next state has committed what its pseudocode staged, or raised its fault (R222). -/
theorem exec_eq_next {i : Instr} {s t : State} :
    exec i s = .next t ↔
      (∃ w c, pseudocode s i = .ok w c ∧ t = commit w c s) ∨
        ∃ k p d, pseudocode s i = .raise k p d ∧ t = raiseFault k p d s := by
  rw [exec_eq_endCommand, endCommand_eq_next]

theorem exec_eq_refused {i : Instr} {s : State} {r : Refusal} : exec i s = .refused r ↔ pseudocode s i = .refuse r := by
  rw [exec_eq_endCommand, endCommand_eq_refused]

/-- The machine itself never stops with a fault: every fault is recorded in the block (R224; log 20). -/
theorem next_or_refused (x : Host.Outcome State Fault Refusal) : (∃ t, x = .next t) ∨ ∃ r, x = .refused r :=
  match x with
  | .next t => .inl ⟨t, rfl⟩
  | .refused r => .inr ⟨r, rfl⟩

/-! ### What a commit leaves, by the shape of what was staged (R140) -/

/-- A scalar command stages neither HCODE nor a payload (R37). -/
theorem Staged.Shape.of_not_payloadCommand {i : Instr} {w : Staged} (h : Staged.Shape i w) (hi : i ∉ payloadCommands) :
    w.hcode = none ∧ w.payload = none := by
  cases h with
  | scalar => exact ⟨rfl, rfl⟩
  | text | handle | handle0 => exact absurd (by decide) hi

/-- A text or handle command stages no RESULT, and a payload whose length fits PLEN (R200). -/
theorem Staged.Shape.of_payloadCommand {i : Instr} {w : Staged} (h : Staged.Shape i w) (hi : i ∈ payloadCommands) :
    w.result = none ∧ ∃ r, w.payload = some r ∧ r.length < 65536 := by
  cases h with
  | scalar hscalar => exact absurd hi hscalar
  | text r hlen | handle code r hlen | handle0 r hlen => exact ⟨rfl, r, rfl, hlen⟩

theorem Staged.Shape.hcode_readTV {w : Staged} (h : Staged.Shape .readTV w) : w.hcode = none := by
  cases h <;> rfl

theorem Staged.Shape.hcode_readH0 {w : Staged} (h : Staged.Shape .readH0 w) : w.hcode = some 0 := by
  cases h with
  | scalar hscalar => exact absurd (by decide) hscalar
  | handle0 => rfl

/-- With no payload staged, PLEN and PAYLOAD stay (R39, R44). -/
theorem commit_of_no_payload {w : Staged} (h : w.payload = none) (c : Nat) (s : State) :
    (commit w c s).plen = s.plen ∧ (commit w c s).payload = s.payload := by
  simp only [commit_plen, commit_payload, Staged.plenAfter, Staged.payloadAfter, h, and_self]

/-- A staged payload that fits PLEN stands in exactly the bytes below the new PLEN (R200). -/
theorem commit_of_payload {w : Staged} {r : List Byte} (h : w.payload = some r) (hlen : r.length < 65536) (c : Nat)
    (s : State) :
    (∀ a, (commit w c s).plen.toNat ≤ a → Memory.read (commit w c s).payload a = Memory.read s.payload a) ∧
      ∀ a, a < (commit w c s).plen.toNat → (Memory.read (commit w c s).payload a).isSome = true := by
  have hplen : (BitVec.ofNat 16 r.length).toNat = r.length := (BitVec.toNat_ofNat _ _).trans (Nat.mod_eq_of_lt hlen)
  simp only [commit_plen, commit_payload, Staged.plenAfter, Staged.payloadAfter, h, hplen]
  exact ⟨fun a ha => Memory.read_writeRun_above s.payload a r ha,
    fun a ha => Option.isSome_of_eq_some (Memory.read_writeRun_zero s.payload a r ha)⟩

/-! ### The causes of a command (R225, R226) -/

/-- Every cause but ILLEGAL_OP has a code from 1 to 5 (R225). -/
theorem Cause.code_of_ne_illegalOp {k : Cause} (h : k ≠ .illegalOp) : 1 ≤ k.code.toNat ∧ k.code.toNat ≤ 5 := by
  cases k with
  | illegalOp => exact absurd rfl h
  | _ => decide

/-- The table of R226 lists the codes of the causes the pseudocode names. -/
theorem causesOf_eq_map_raises (k : Config) (i : Instr) : causesOf k i = (raises k i).map Cause.code := by
  cases i with
  | readBD =>
    simp only [causesOf, raises]
    split <;> rfl
  | _ => rfl

/-- Settles O20, by the end of the command: the staged shape says what a commit leaves, and no pseudocode raises
ILLEGAL_OP. -/
theorem commandsCommitOrFaultPrecisely : Obligations.CommandsCommitOrFaultPrecisely := by
  intro i s t hexec
  obtain ⟨w, c, hok, rfl⟩ | ⟨k, p, d, hraise, rfl⟩ := exec_eq_next.1 hexec
  · have hshape := pseudocode_staged hok
    refine .inl ⟨rfl, fun hi => ?scalar, fun hi => ?payload, fun hi => ?text, fun hi => ?handle0⟩
    case scalar =>
      obtain ⟨hhcode, hpayload⟩ := hshape.of_not_payloadCommand hi
      exact ⟨by rw [commit_hcode, hhcode, Option.getD_none], commit_of_no_payload hpayload c s⟩
    case payload =>
      obtain ⟨hresult, r, hpayload, hlen⟩ := hshape.of_payloadCommand hi
      exact ⟨by rw [commit_result, hresult, Option.getD_none], commit_of_payload hpayload hlen c s⟩
    case text =>
      subst hi
      rw [commit_hcode, hshape.hcode_readTV, Option.getD_none]
    case handle0 =>
      subst hi
      rw [commit_hcode, hshape.hcode_readH0, Option.getD_some]
  · obtain ⟨hmem, hpos⟩ := (pseudocode_within s i).onRaise k p d hraise
    have hlegal : k ≠ .illegalOp := ne_of_mem_of_not_mem hmem (illegalOp_not_mem_raises s.cfg i)
    obtain ⟨hone, hfive⟩ := Cause.code_of_ne_illegalOp hlegal
    exact .inr ⟨k.code, p, d, hone, hfive, hpos, raiseFault_eq k p d s⟩

/-- Settles O21: a commit leaves FAULT as it was, and a fault's cause is one its pseudocode names. -/
theorem commandsRaiseOnlyTheirCauses : Obligations.CommandsRaiseOnlyTheirCauses := by
  intro i s t hnofault hexec hfault
  obtain ⟨w, c, -, rfl⟩ | ⟨k, p, d, hraise, rfl⟩ := exec_eq_next.1 hexec
  · rw [commit_fault, hnofault] at hfault
    exact absurd hfault Bool.false_ne_true
  · obtain ⟨hmem, -⟩ := (pseudocode_within s i).onRaise k p d hraise
    rw [raiseFault_cause, causesOf_eq_map_raises]
    exact List.mem_map_of_mem hmem

/-! ### Refusals (R254) -/

/-- A command is refused only for a byte below BUFLEN that the host never wrote (R45, R254). -/
theorem unwritten_of_exec_refused {i : Instr} {s : State} {r : Refusal} (h : exec i s = .refused r) :
    (∃ pos, r = .unwrittenBuf pos) ∧ ∃ a, a < s.buflen.toNat ∧ Memory.read s.buf a = none :=
  (pseudocode_within s i).onRefuse r (exec_eq_refused.1 h)

/-- Settles O24: a loaded buffer leaves a refusal no byte to be for. -/
theorem everyCommandEnds : Obligations.EveryCommandEnds := by
  refine fun i s => ⟨fun hloaded => ?_, fun r => unwritten_of_exec_refused⟩
  obtain hnext | ⟨r, hrefused⟩ := next_or_refused (exec i s)
  · exact hnext
  · obtain ⟨-, a, hlt, hnone⟩ := unwritten_of_exec_refused hrefused
    have hwritten := hloaded a hlt
    rw [hnone] at hwritten
    cases hwritten

end Sys2Proof.Machine
end

section
/-! Who moves, and what becomes of a recorded fault and of a pending command (R220 to R222, R229, R230, R239); a system of
instances (R238). -/

namespace Sys2Proof.Machine

/-! ### A recorded fault under the host's turns -/

/-- While FAULT = 1 and BUSY = 0 a turn of the host leaves the fault, or it is the STATUS write that clears it: CMD is not
accepted (R221), and nothing else the host does writes FAULT, CAUSE or BUSY. -/
theorem HostEffect.fault_kept_or_cleared {s t : State} (h : HostEffect s t) (hb : s.busy = false) (hf : s.fault = true) :
    (t.fault = true ∧ t.busy = false ∧ t.cause = s.cause) ∨
      ∃ w : Word, s.host.prog[s.host.pos]? = some (.wr 0x08 w) ∧ w.getLsbD 1 = true := by
  cases h with
  | own | dropped | cursor | buflen | dflt | buf => exact .inl ⟨hf, hb, rfl⟩
  | cmd w a hidle hnofault => exact absurd (hf.symm.trans hnofault) Bool.false_ne_true.symm
  | status w a hat =>
    cases hclear : w.getLsbD 1 with
    | true => exact .inr ⟨w, hat, hclear⟩
    | false =>
      obtain ⟨hfault, hcause⟩ := writeStatus_of_not_bit1 hclear s
      exact .inl ⟨hfault.trans hf, hb, hcause⟩

/-- The same with the whole record of the fault (R230). -/
theorem fault_record_kept_or_cleared {s t : State} (h : hostTurn s = .next t) (hb : s.busy = false) (hf : s.fault = true) :
    (t.fault = true ∧ t.busy = false ∧ t.cause = s.cause ∧ t.faultCursor = s.faultCursor ∧ t.faultOp = s.faultOp ∧
        t.faultDetail = s.faultDetail) ∨
      ∃ w : Word, s.host.prog[s.host.pos]? = some (.wr 0x08 w) ∧ w.getLsbD 1 = true := by
  have heffect := hostTurn_effect h
  obtain ⟨-, -, -, -, hrecord⟩ := heffect.engineState_eq
  exact (heffect.fault_kept_or_cleared hb hf).imp_left fun ⟨hfault, hbusy, hcause⟩ => ⟨hfault, hbusy, hcause, hrecord⟩

/-- Settles O40, by who moved: with FAULT = 1 the invariant gives BUSY = 0, so the engine runs no command. -/
theorem faultStaysUntilCleared : Obligations.FaultStaysUntilCleared := by
  intro s t hs hf h
  have hb : s.busy = false := by simpa [hf] using hs.phaseOk
  obtain ⟨-, -, hhost⟩ | ⟨-, hbusy, -⟩ | ⟨ts, -, hhost⟩ | ⟨ts, -, -, rfl⟩ | ⟨ts, -, hbusy, -⟩ | ⟨ts, hturns, -⟩ :=
    step_cases h
  · exact (fault_record_kept_or_cleared hhost hb hf).imp_right .inr
  · exact absurd (hbusy.symm.trans hb) Bool.false_ne_true.symm
  · exact (fault_record_kept_or_cleared (s := { s with turns := ts }) hhost hb hf).imp_right .inr
  · exact .inl ⟨hf, hb, rfl, rfl, rfl, rfl⟩
  · exact absurd (hbusy.symm.trans hb) Bool.false_ne_true.symm
  · exact .inr (.inl ⟨ts, hturns⟩)

/-! ### A pending command -/

/-- The engine's step is the whole command: it leaves BUSY = 0 (R222). -/
theorem engineStep_busy {s t : State} (h : engineStep s = .next t) : t.busy = false := by
  obtain ⟨i, -, hexec⟩ | ⟨_, -, rfl⟩ := engineStep_cases h
  · obtain ⟨w, c, -, rfl⟩ | ⟨k, p, d, -, rfl⟩ := exec_eq_next.1 hexec
    · exact commit_busy w c s
    · exact raiseFault_busy k p d s
  · exact raiseFault_busy _ _ _ s

/-- No statement of the host writes the schedule (log 5). -/
theorem HostEffect.turns_eq {s t : State} (h : HostEffect s t) : t.turns = s.turns := by
  cases h <;> rfl

/-- Settles O42, by who moved: the engine and the reset input leave BUSY = 0, a scheduled turn of the host uses itself up. -/
theorem pendingCommandEndsInTime : Obligations.PendingCommandEndsInTime := by
  intro s t hb h
  obtain ⟨-, hidle, -⟩ | ⟨-, -, hengine⟩ | ⟨ts, hturns, hhost⟩ | ⟨ts, -, hidle, -⟩ | ⟨ts, -, -, hengine⟩ | ⟨ts, -, rfl⟩ :=
    step_cases h
  · exact absurd (hb.symm.trans hidle) Bool.false_ne_true.symm
  · exact .inl (engineStep_busy hengine)
  · have heffect := hostTurn_effect hhost
    obtain ⟨hbusy, hpending, -⟩ := heffect.inputs_eq_of_busy hb
    refine .inr ⟨hbusy, hpending, ?_⟩
    rw [heffect.turns_eq, hturns, List.length_cons]
  · exact absurd (hb.symm.trans hidle) Bool.false_ne_true.symm
  · exact .inl (engineStep_busy hengine)
  · exact .inl rfl

theorem engineStep_of_decode {s : State} {i : Instr} (h : decode s.pending = .ok i) : engineStep s = exec i s := by
  rw [engineStep, h]

/-- A scheduled turn of the engine is its step on the state with that turn taken off, where a command is pending (R222). -/
theorem step_of_engine_turn {s : State} {ts : List Turn} (hturns : s.turns = .engine :: ts) (hb : s.busy = true) :
    step s = engineStep { s with turns := ts } := by
  simp only [step, takeTurn, hturns, engineTurn, hb, if_true]

/-- With no turn scheduled, a placed word is the engine's to run at once (R222; log 5, log 6). -/
theorem step_withPending {s : State} (hturns : s.turns = []) (w : Word) :
    step (withPending w s) = engineStep { s with pending := w, busy := true } := by
  have hplaced : withPending w s = { s with pending := w, busy := true } := by
    simp only [withPending, hturns, engineFirst]
  rw [hplaced]
  exact step_of_busy hturns rfl

/-- Settles O23: in each of the three states the step is the engine's, on a word that decodes to the instruction. -/
theorem stepRunsDecodedInstruction : Obligations.StepRunsDecodedInstruction := by
  refine fun s i => ⟨fun hb hdecode hturns => ?_, fun ts hb hdecode hturns => ?_, fun nbits w htable hturns => ?_⟩
  · rw [step_of_busy hturns hb, engineStep_of_decode hdecode]
  · rw [step_of_engine_turn hturns hb]
    exact engineStep_of_decode hdecode
  · rw [State.withFetchWord, step_withPending hturns]
    have hdecode := decode_of_decodeTableWord htable
    exact engineStep_of_decode hdecode

/-! ### The machine at rest (R239, R260) -/

theorem hostTurn_of_ended {s : State} (h : hostEnded s = true) : hostTurn s = .next s := by
  unfold hostEnded at h
  unfold hostTurn
  split at h
  case h_1 hat => rw [hat]; rfl
  case h_2 => cases h
  case h_3 hat => rw [hat]

/-- Settles O43: the ended host's turn and the idle engine's turn both leave the block as it is. -/
theorem idleMachineRests : Obligations.IdleMachineRests := by
  refine fun s => ⟨fun ⟨hended, hb, hturns⟩ => ?_, fun ts hb hturns => ?_⟩
  · simp only [step, takeTurn, hturns, hb, Bool.false_eq_true, if_false, hostTurn_of_ended hended]
  · simp only [step, takeTurn, hturns, engineTurn, hb, Bool.false_eq_true, if_false]

/-! ### A system of instances (R238) -/

theorem systemStep_of_no_entry {sys : List State} {k : Nat} (hk : sys[k]? = none) : systemStep sys k = .next sys := by
  rw [systemStep, hk]

section
variable {sys : List State} {k : Nat} {s : State} (hk : sys[k]? = some s)
include hk

/-- A turn of entry `k` completes exactly when the step of the state there does, which then replaces it. -/
theorem systemStep_eq_next {sys' : List State} :
    systemStep sys k = .next sys' ↔ ∃ t, step s = .next t ∧ sys' = sys.set k t := by
  simp only [systemStep, hk, step]
  cases takeTurn s with
  | next t => simp [eq_comm]
  | fault | refused => simp

theorem systemStep_eq_refused {r : Refusal} : systemStep sys k = .refused r ↔ step s = .refused r := by
  simp only [systemStep, hk, step]
  cases takeTurn s <;> simp

/-- The entry that moved holds its next state. -/
theorem getElem?_set_of_entry (t : State) : (sys.set k t)[k]? = some t := by
  rw [List.getElem?_set_self', hk]
  rfl

end

/-- Settles O44: a turn of entry `k` is the step of the state there, and sets that entry alone. -/
theorem instancesAreIndependent : Obligations.InstancesAreIndependent := by
  refine ⟨fun sys sys' k j h hj => ?others, fun sys k s hk =>
    ⟨fun _ => systemStep_eq_next hk, fun _ => systemStep_eq_refused hk, fun other sys' hother h => ?same⟩⟩
  case others =>
    cases hk : sys[k]? with
    | none =>
      rw [systemStep_of_no_entry hk] at h
      cases h
      rfl
    | some s =>
      obtain ⟨t, -, rfl⟩ := (systemStep_eq_next hk).1 h
      exact List.getElem?_set_ne hj.symm
  case same =>
    obtain ⟨t, hstep, rfl⟩ := (systemStep_eq_next hk).1 h
    refine ⟨other.set k t, (systemStep_eq_next hother).2 ⟨t, hstep, rfl⟩, ?_⟩
    rw [getElem?_set_of_entry hother, getElem?_set_of_entry hk]

end Sys2Proof.Machine
end

section
/-! Which writes of the host are dropped, which are ignored and which take effect (R221, R231). -/

namespace Sys2Proof.Machine

/-! ### Dropped writes -/

theorem writeIfIdle_of_busy {s : State} (hb : s.busy = true) (t : State) : writeIfIdle s t = dropWrite s := if_pos hb

theorem writeIfIdle_of_idle {s : State} (hb : s.busy = false) (t : State) : writeIfIdle s t = t :=
  if_neg (ne_true_of_eq_false hb)

/-- CMD drops a word while BUSY = 1 or FAULT = 1 (R221). -/
theorem hostWriteReg_cmd_dropped {s : State} (h : s.busy = true ∨ s.fault = true) (w : Word) :
    hostWriteReg 0x00 w s = .next (dropWrite s) :=
  congrArg Host.Outcome.next (if_pos (Bool.or_eq_true_iff.2 h))

/-- BUFLEN drops a word above BUF_CAP in any phase (R35). -/
theorem writeBuflen_of_above {s : State} {w : Word} (hw : s.cfg.bufCap < w.toNat) : writeBuflen w s = dropWrite s :=
  if_pos hw

theorem writeBuflen_of_le {s : State} {w : Word} (hw : w.toNat ≤ s.cfg.bufCap) :
    writeBuflen w s = writeIfIdle s { s with buflen := w } :=
  if_neg hw.not_gt

theorem writeBuflen_of_busy {s : State} (hb : s.busy = true) (w : Word) : writeBuflen w s = dropWrite s := by
  rw [writeBuflen, writeIfIdle_of_busy hb, ite_self]

/-- The host's own registers are the engine's to read while BUSY = 1 (R34 to R36, R231). -/
theorem hostWriteReg_dropped_of_busy {s : State} (hb : s.busy = true) {off : Nat} (hoff : off ∈ [0x10, 0x18, 0x20])
    (w : Word) : hostWriteReg off w s = .next (dropWrite s) := by
  simp only [List.mem_cons, List.not_mem_nil, or_false] at hoff
  obtain rfl | rfl | rfl := hoff
  · exact congrArg Host.Outcome.next (writeIfIdle_of_busy hb _)
  · exact congrArg Host.Outcome.next (writeBuflen_of_busy hb w)
  · exact congrArg Host.Outcome.next (writeIfIdle_of_busy hb _)

theorem hostWriteBuf_of_busy {s : State} {a : Nat} (hb : s.busy = true) (ha : a < s.cfg.bufCap) (v : Byte) :
    hostWriteBuf a v s = .next (dropWrite s) := by
  rw [hostWriteBuf, if_pos ha, writeIfIdle_of_busy hb]

/-! ### Ignored writes -/

/-- The read-only registers ignore writes (R37 to R39, R42, R43). -/
theorem hostWriteReg_readOnly {off : Nat} (hoff : off ∈ [0x28, 0x30, 0x38, 0x40, 0x48]) (w : Word) (s : State) :
    hostWriteReg off w s = .next s := by
  simp only [List.mem_cons, List.not_mem_nil, or_false] at hoff
  obtain rfl | rfl | rfl | rfl | rfl := hoff <;> rfl

/-- So do the reserved offsets (R49). -/
theorem hostWriteReg_reserved {off : Nat} (hge : 0x50 ≤ off) (hle : off ≤ 0xF8) (halign : off % 8 = 0) (w : Word)
    (s : State) : hostWriteReg off w s = .next s := by
  obtain ⟨hwrite, -, -⟩ := reserved_offset hge hle halign w s
  rw [hostWriteReg, if_pos (offsetOk_of_aligned hle halign), hwrite]

/-! ### The obligations -/

/-- Settles O31: acceptance looks at BUSY and FAULT, never at the word. -/
theorem commandAcceptance : Obligations.CommandAcceptance :=
  fun _ w => ⟨fun h => hostWriteReg_cmd_dropped h w, fun ⟨hb, hf⟩ => hostWriteReg_cmd_of_idle hb hf w⟩

/-- Settles O33: the dropped writes, the ignored ones and those that take effect, each by its register's rule. -/
theorem droppedAndIgnoredWrites : Obligations.DroppedAndIgnoredWrites := by
  intro s w v a off
  refine ⟨fun h => hostWriteReg_cmd_dropped h w, fun hb hoff => hostWriteReg_dropped_of_busy hb hoff w,
    fun hb ha => hostWriteBuf_of_busy hb ha v, fun hw => congrArg Host.Outcome.next (writeBuflen_of_above hw),
    fun hoff => hostWriteReg_readOnly hoff w s, fun hge hle halign => hostWriteReg_reserved hge hle halign w s,
    fun hb => ⟨?cursor, fun hw => ?buflen, ?dflt, fun ha => hostWriteBuf_of_idle hb ha v⟩⟩
  case cursor => exact congrArg Host.Outcome.next (writeIfIdle_of_idle hb _)
  case buflen => exact congrArg Host.Outcome.next ((writeBuflen_of_le hw).trans (writeIfIdle_of_idle hb _))
  case dflt => exact congrArg Host.Outcome.next (writeIfIdle_of_idle hb _)

end Sys2Proof.Machine
end

section
/-! The reset state (R250, R251), and what the host's reads return while BUSY = 1 (R83, R256). -/

namespace Sys2Proof.Machine

open Sys2Proof.Claims

/-! ### Reset -/

/-- Admissible parameters are all the reset state owes: its registers are 0 and its memories never written (R250). -/
theorem State.Inv.resetOf {k : Config} (hk : k.wf = true) : (State.resetOf k).Inv where
  cfgOk := hk
  buflenLe := Nat.zero_le _
  plenLe := Nat.zero_le _
  phaseOk := rfl
  causeIffFault := iff_of_true rfl rfl
  causeLe := Nat.zero_le _
  bufWf := rfl
  payloadWf := rfl
  bufBelowCap _ _ := rfl
  payloadBelowCap _ _ := rfl
  payloadHeld i hi := absurd hi (Nat.not_lt_zero i)

/-- Settles O27: State.reset is the reset state of one admissible choice of the parameters. -/
theorem resetMeetsInvariant : Obligations.ResetMeetsInvariant :=
  have hstandard : Config.standard.wf = true := by decide
  ⟨State.Inv.resetOf hstandard, fun _ => State.Inv.resetOf⟩

/-- A scheduled reset is taken whatever the phase (R251). -/
theorem step_of_reset_turn {s : State} {ts : List Turn} (hturns : s.turns = .reset :: ts) :
    step s = .next (resetEvent { s with turns := ts }) := by
  simp only [step, takeTurn, hturns]

/-- Settles O30: the next state is the reset event's, in which the model's PENDING is 0 (log 2). -/
theorem resetStateAnyPhase : Obligations.ResetStateAnyPhase :=
  fun _ _ hturns => ⟨0, step_of_reset_turn hturns⟩

/-! ### Reads while BUSY = 1 -/

/-- A register that is not the engine's reads true in every phase (R256). -/
theorem regSeen_of_not_engineOwned {off : Nat} (hown : engineOwned off = false) (s : State) :
    regSeen off s = regValue off s := by
  simp only [regSeen, hown, Bool.and_false, Bool.false_eq_true, if_false]

/-- A register that the engine may be writing shows the next free value while BUSY = 1 (R256; log 4). -/
theorem regSeen_of_engineOwned {s : State} (hb : s.busy = true) {off : Nat} (hown : engineOwned off = true) :
    regSeen off s = Config.freeWord s.freeCount := by
  simp only [regSeen, hb, hown, Bool.and_self, if_true]

/-- So does every PAYLOAD byte (R256; log 4). -/
theorem paySeen_of_busy {s : State} (hb : s.busy = true) (i : Nat) : paySeen i s = Config.freeByte s.freeCount :=
  if_pos hb

theorem hostReadReg_notes_regValue {off : Nat} (hoff : offsetOk off = true) (hown : engineOwned off = false) (s : State) :
    notes (hostReadReg off s) s (.reg off (regValue off s)) :=
  regSeen_of_not_engineOwned hown s ▸ hostReadReg_notes hoff s

theorem hostReadReg_notes_free {s : State} (hb : s.busy = true) {off : Nat} (hoff : offsetOk off = true)
    (hown : engineOwned off = true) : notes (hostReadReg off s) s (.reg off (Config.freeWord s.freeCount)) :=
  regSeen_of_engineOwned hb hown ▸ hostReadReg_notes hoff s

theorem regValue_status_of_busy {s : State} (hb : s.busy = true) :
    regValue 0x08 s = BitVec.ofNat 64 (1 + 2 * s.fault.toNat + 4 * s.drop.toNat + 16 * s.cause.toNat) := by
  have hword := statusWord_eq s
  rwa [hb, Bool.toNat_true] at hword

/-- The six registers of R256's list lie in the window and are the engine's. -/
theorem offsetOk_and_engineOwned {off : Nat} (hoff : off ∈ [0x10, 0x28, 0x30, 0x38, 0x40, 0x48]) :
    offsetOk off = true ∧ engineOwned off = true := by
  simp only [List.mem_cons, List.not_mem_nil, or_false] at hoff
  obtain rfl | rfl | rfl | rfl | rfl | rfl := hoff <;> exact ⟨rfl, rfl⟩

/-- Settles O36: the reads split by whether the engine may be writing what they show. -/
theorem readsWhileBusy : Obligations.ReadsWhileBusy := by
  intro s hb
  refine ⟨?status, hostReadReg_notes_regValue rfl rfl s, hostReadReg_notes_regValue rfl rfl s,
    hostReadReg_notes_regValue rfl rfl s, fun off hge hle halign => ?reserved, fun a b ha hread => ?buf,
    fun off hoff => ?engine, fun i hi => ?payload⟩
  case status => exact regValue_status_of_busy hb ▸ hostReadReg_notes_regValue rfl rfl s
  case reserved =>
    obtain ⟨-, hvalue, hown⟩ := reserved_offset hge hle halign 0 s
    exact hvalue ▸ hostReadReg_notes_regValue (offsetOk_of_aligned hle halign) hown s
  case buf =>
    have hseen : bufSeen a s = b := bufSeen_eq_getD hread
    exact hseen ▸ hostReadBuf_notes ha
  case engine =>
    obtain ⟨hwindow, hown⟩ := offsetOk_and_engineOwned hoff
    exact hostReadReg_notes_free hb hwindow hown
  case payload => exact paySeen_of_busy hb i ▸ hostReadPay_notes hi

end Sys2Proof.Machine
end
